-- ==== Sys2Proof/Word.lean ====
section
/-! DEFINITION. The three word types of the machine: a tape cell, a source character's code point, a fetch word. -/

namespace Sys2Proof

/-- One tape cell, and one unit of input and output: "unsigned 8-bit" (10_state.md R21; 00_scope.md R12). -/
abbrev Byte := BitVec 8

/-- One character of the program source, as its 21-bit code point (30_encoding.md R85, R86; log entry 6). -/
abbrev CodePoint := BitVec 21

/-- The binary form of "an optional character": bit 21 is `v`, bits 20 to 0 are `cp` (30_encoding.md R86). -/
abbrev FetchWord := BitVec 22

/-- A Unicode scalar value: `0..0xD7FF` or `0xE000..0x10FFFF` (30_encoding.md R85; PRESUMED, log entry 6). -/
def isScalarValue (c : CodePoint) : Bool :=
  decide (c.toNat ≤ 0xD7FF) || (decide (0xE000 ≤ c.toNat) && decide (c.toNat ≤ 0x10FFFF))

end Sys2Proof
end

