-- ==== Sys2Proof/Syntax.lean ====
section
/-! DEFINITION. The Symbol of 30_encoding.md R93: one constructor per row of spec/opcode_table.json. -/

namespace Sys2Proof

/-- "A Symbol is a value of a closed ten-way tagged type: the eight instructions, EOF, and Other(char)" (R93). No
instruction has an operand in its encoding (R89). -/
inductive Instr where
  /-- `>`: data pointer up by one, checked (41_pointer.md R140). -/
  | moveRight
  /-- `<`: data pointer down by one, checked (41_pointer.md R141). -/
  | moveLeft
  /-- `+`: the selected cell up by one, checked (42_cell_arith.md R151). -/
  | increment
  /-- `-`: the selected cell down by one, checked (42_cell_arith.md R152). -/
  | decrement
  /-- `.`: output the selected cell, checked (43_io.md R160). -/
  | print
  /-- `,`: input into the selected cell, checked (43_io.md R163). -/
  | read
  /-- `[`: enter the loop or start skipping it (44_loop.md R180). -/
  | loopStart
  /-- `]`: return to the matching `[` (44_loop.md R181). -/
  | loopEnd
  /-- The absence of a character: the end of the source (30_encoding.md R82; 40_dispatch.md R117). -/
  | eof
  /-- Any other character, a comment; it carries the character, which nothing reads (30_encoding.md R83). -/
  | other (c : CodePoint)
  deriving DecidableEq, Repr

end Sys2Proof
end

