-- ==== Sys2Proof/WellFormed.lean ====
section
/-! DEFINITION. Which symbols the decoder can produce, and which sources are made of characters. -/

namespace Sys2Proof

/-- The code points of the eight instruction characters (30_encoding.md R81's table, R85). -/
def instructionCodePoints : List CodePoint :=
  [0x3E#21, 0x3C#21, 0x2B#21, 0x2D#21, 0x2E#21, 0x2C#21, 0x5B#21, 0x5D#21]

/-- A symbol is well formed when it is one the decoder can give: `Other(c)` is "any OTHER character" (30_encoding.md R81),
so its character is none of the eight. -/
def Instr.wellFormed : Instr → Bool
  | .moveRight => true
  | .moveLeft => true
  | .increment => true
  | .decrement => true
  | .print => true
  | .read => true
  | .loopStart => true
  | .loopEnd => true
  | .eof => true
  | .other c => decide (c ∉ instructionCodePoints)

/-- A source made of characters: every item is a Unicode scalar value (30_encoding.md R85). Nothing in the machine needs
it: a code point that is none decodes to Other (R87; 93_implementation_defined.md U11). -/
def sourceOfCharacters (src : List CodePoint) : Bool := src.all isScalarValue

end Sys2Proof
end

