-- ==== Sys2Proof/Decode.lean ====
section
/-! DEFINITION. The Symbol Decoder of 30_encoding.md (total on all fetch words), the encoder, and the rows' masks. -/

namespace Sys2Proof

/-- The optional character in a fetch word: `v` is bit 21, `cp` is bits 20 to 0 and is ignored when `v = 0` (R86). -/
def presentChar (w : FetchWord) : Option CodePoint :=
  if w.getLsbD 21 then some (w.setWidth 21) else none

/-- The fetch word of an optional character (R86). The `cp` bits of an absent character "may hold anything"; this model
puts 0 there, as the spec's own traces do (95_test_vectors.md, Scenario A), and the decoder ignores them (log entry 7). -/
def packFetch : Option CodePoint → FetchWord
  | none => 0#22
  | some c => 0x200000#22 ||| c.setWidth 22

/-- The symbol of a character (30_encoding.md R81, R87): an exact match on all 21 bits (R88). -/
def ofCodePoint (c : CodePoint) : Instr :=
  if c = 0x00003E#21 then .moveRight
  else if c = 0x00003C#21 then .moveLeft
  else if c = 0x00002B#21 then .increment
  else if c = 0x00002D#21 then .decrement
  else if c = 0x00002E#21 then .print
  else if c = 0x00002C#21 then .read
  else if c = 0x00005B#21 then .loopStart
  else if c = 0x00005D#21 then .loopEnd
  else .other c

/-- `Decode(w)`, "total on all 2^22 fetch words" (30_encoding.md R87): no encoding is illegal or reserved (R90). -/
def decode (w : FetchWord) : Instr :=
  match presentChar w with
  | none => .eof
  | some c => ofCodePoint c

/-- The character a symbol is written with, or none for EOF (30_encoding.md R81's table). -/
def charOf : Instr → Option CodePoint
  | .moveRight => some 0x3E#21
  | .moveLeft => some 0x3C#21
  | .increment => some 0x2B#21
  | .decrement => some 0x2D#21
  | .print => some 0x2E#21
  | .read => some 0x2C#21
  | .loopStart => some 0x5B#21
  | .loopEnd => some 0x5D#21
  | .eof => none
  | .other c => some c

/-- The encoder: the fetch word of a symbol, EOF with its ignored bits 0 (30_encoding.md R86, R87). -/
def encode (i : Instr) : FetchWord := packFetch (charOf i)

/-- The `mask` of the symbol's row in spec/opcode_table.json (30_encoding.md R87, R95). -/
def rowMask : Instr → FetchWord
  | .moveRight => 0x3FFFFF#22
  | .moveLeft => 0x3FFFFF#22
  | .increment => 0x3FFFFF#22
  | .decrement => 0x3FFFFF#22
  | .print => 0x3FFFFF#22
  | .read => 0x3FFFFF#22
  | .loopStart => 0x3FFFFF#22
  | .loopEnd => 0x3FFFFF#22
  | .eof => 0x200000#22
  | .other _ => 0x200000#22

/-- The `match` of the symbol's row in spec/opcode_table.json (30_encoding.md R87, R95). -/
def rowMatch : Instr → FetchWord
  | .moveRight => 0x20003E#22
  | .moveLeft => 0x20003C#22
  | .increment => 0x20002B#22
  | .decrement => 0x20002D#22
  | .print => 0x20002E#22
  | .read => 0x20002C#22
  | .loopStart => 0x20005B#22
  | .loopEnd => 0x20005D#22
  | .eof => 0x000000#22
  | .other _ => 0x200000#22

/-- The symbol the decoder reads from the opcode table's word `w`. The table's words ARE fetch words, bit 0 the least
significant (30_encoding.md R86), so `w` is handed over as it stands; a number above 22 bits is no fetch word and is
refused (log entry 24). -/
def decodeTableWord (_nbits w : Nat) : Option Instr :=
  if w < 2 ^ 22 then some (decode (BitVec.ofNat 22 w)) else none

end Sys2Proof
end

