-- ==== Sys2Proof/Config.lean ====
section
/-! DEFINITION. What an implementation fixes, and the values the spec leaves open (opaque: nothing is known of them). -/

namespace Sys2Proof.Config

/-- The capacity "this hardware takes when nothing else is said" (00_scope.md R6). Every rule holds for any `C >= 1`:
the capacity of a machine is the field `cap` of its state, and this number is used by `State.reset` alone. -/
def defaultCapacity : Nat := 30000

/-- FREE VALUE (log entry 5). The answer of the input collaborator to its `k`-th call, for a `k` beyond the answers that
the state's script lists. "The input collaborator always answers, `some(b)` or `none`" (43_io.md R168), and the spec
does not say what (R165: the sequence is a parameter of the run). -/
opaque inputBeyondScript : Nat → Option Byte

/-- FREE VALUE (log entry 18). Whether the reference input collaborator counts the line terminator as part of the line,
left open by 43_io.md R166 (92_eei_decisions.md D16). -/
opaque lineKeepsTerminator : Bool

end Sys2Proof.Config
end

