-- ==== Sys2Proof/Machine/State.lean ====
section
/-! DEFINITION. The state, the seven faults, and what one step answers, as plain data. -/

namespace Sys2Proof.Machine

/-- The delta of Delta Arithmetic: "the integer +1 or -1" (42_cell_arith.md R150; `Delta.toInt` is that integer). -/
inductive Delta where
  | plusOne
  | minusOne
  deriving DecidableEq, Repr

/-- The fault taxonomy, a "closed set" of seven kinds (60_exceptions.md R200). A fault is the machine's own reported
outcome and not a gap of the model, so each is safe; the run ends with it (R209, R212). -/
inductive Fault where
  /-- Raised by MoveRight at `dp = C - 1` and MoveLeft at `dp = 0`, carrying the unmoved `dp` (R201). Also the kind of a
  tape access at or beyond the capacity, which no state with `dp < C` meets (20_memory.md R53; log entry 8). Safe. -/
  | ptrOutOfBounds (pointer : Nat)
  /-- Raised by Increment on 255 and Decrement on 0, carrying `dp` and the attempted delta (R202). Safe. -/
  | valOutOfBounds (address : Nat) (delta : Delta)
  /-- Raised by Read when the input collaborator answers `none` (R203). Safe. -/
  | invalidChar
  /-- Raised by LoopEnd in Running on an empty stack (R204). Safe. -/
  | stackUnderflow
  /-- Raised by any symbol presented in Halted (R205). Safe. -/
  | haltedMachine
  /-- Raised by EOF in Skipping(d), carrying `ip` and `d` (R206). Safe. -/
  | mismatchedBrackets (instructionPtr : Nat) (missingBrackets : Nat)
  /-- Raised by Print on a byte that is no UTF-8 scalar value on its own, carrying the byte (R207). Safe. -/
  | unprintableByte (byte : Byte)
  deriving DecidableEq, Repr

/-- Why the model gives no next state and no fault. -/
inductive Refusal where
  /-- An instruction of the table without a meaning yet; no arm of `exec` answers so. Safe. -/
  | notModelled (mnemonic : String)
  /-- Raised by `newEngine` alone, when it is asked for a machine of capacity 0 (00_scope.md R7; 93 U4: refuse before
  the run). Safe. -/
  | zeroCapacity
  deriving DecidableEq, Repr

/-- The machine state `ms` (10_state.md R28): "exactly one of" three. `skipping 0` does not exist on the machine; the
invariant `State.Inv` rules it out (log entry 13). -/
inductive MState where
  | running
  | skipping (depth : Nat)
  | halted
  deriving DecidableEq, Repr

/-- The tape: the cells that differ from 0, sorted by address (`Memory.wf`); an unlisted cell holds 0 (log entry 14). -/
abbrev Memory := List Host.Cell

/-- The state. The first group is the engine's, "exactly five things" (10_state.md R20); the second is the environment's
that a run needs (R33); the third is the run's parameters, which no step writes (00_scope.md R6, R8; 43_io.md R165). -/
structure State where
  /-- The tape (R21). -/
  tape : Memory
  /-- The data pointer (R23). -/
  dp : Nat
  /-- The instruction pointer, unbounded (R24, R25). -/
  ip : Nat
  /-- The loop-return stack, written bottom first as the spec writes it: the top is the last entry (R26). -/
  lrs : List Nat
  /-- The machine state register (R28). -/
  ms : MState
  /-- How many answers the input collaborator has given (R33 b). -/
  inputPos : Nat
  /-- The output log, oldest byte first (R33 c). -/
  output : List Byte
  /-- The tape capacity `C` (00_scope.md R6; log entry 3). -/
  cap : Nat
  /-- The program source; its length is `L` (00_scope.md R8; R33 a). -/
  src : List CodePoint
  /-- The input collaborator's scripted answers, the first at position 0; beyond them the answer is the free value
  `Config.inputBeyondScript` (43_io.md R165; log entry 5). -/
  answers : List (Option Byte)
  deriving DecidableEq, Repr

/-- A fresh machine (10_state.md R35), made for the parameters of a run: "every tape cell is 0; `ms = Running`; `dp = 0`;
`ip = 0`; `lrs` is empty; in the environment the output log is empty and the input position is 0". -/
def State.fresh (cap : Nat) (src : List CodePoint) (answers : List (Option Byte)) : State where
  tape := []
  dp := 0
  ip := 0
  lrs := []
  ms := .running
  inputPos := 0
  output := []
  cap := cap
  src := src
  answers := answers

/-- The machine right after reset, of the default capacity. The host loads the program (70_reset_and_hazards.md R242):
none is loaded here, and no input answer is scripted (log entry 4). -/
def State.reset : State := State.fresh Config.defaultCapacity [] []

/-- `result_out`: "returns success or a fault" (10_state.md R34); success carries nothing (40_dispatch.md R121). -/
inductive Result where
  | ok
  | fault (f : Fault)
  deriving DecidableEq, Repr

/-- The outputs of one step (40_dispatch.md R110): the new state, the result, and the collaborator call it made, if any
(43_io.md R169). A faulting step has a new state too, since it may have consumed an input answer (R120). -/
structure StepOut where
  state : State
  result : Result
  /-- The answer taken from the input collaborator, when one was asked for (`in_req`, `in_resp`). -/
  answer : Option (Option Byte)
  /-- The byte handed to the output collaborator, when there was one (`out_byte`). -/
  outByte : Option Byte
  deriving DecidableEq, Repr

/-- How a run ended (40_dispatch.md R125). -/
inductive RunOutcome where
  | succeeded
  | faulted (f : Fault)
  deriving DecidableEq, Repr

/-- A run as the driver holds it: the machine, and the outcome, which "is kept by the driver, not by the engine" (R125);
`none` while the run goes on. -/
structure Run where
  state : State
  outcome : Option RunOutcome
  deriving DecidableEq, Repr

end Sys2Proof.Machine
end

