-- ==== Sys2Proof/Machine/Flags.lean ====
section
/-! DEFINITION. The machine has no flags (10_state.md R31). Here are the tests on data that its instructions make
instead: Delta Arithmetic's range check, the loop test, and the printability test (42_cell_arith.md R153 lists them). -/

namespace Sys2Proof.Machine

/-- The integer a delta stands for (42_cell_arith.md R150). -/
def Delta.toInt : Delta → Int
  | .plusOne => 1
  | .minusOne => -1

/-- `apply(current, delta)` (42_cell_arith.md R150): the sum as a mathematical integer; where it leaves
`[0, 255]`, "fails carrying the attempted delta"; it never wraps (R153). -/
def applyDelta (current : Byte) (delta : Delta) : Except Delta Byte :=
  let sum : Int := (current.toNat : Int) + delta.toInt
  if 0 ≤ sum ∧ sum ≤ 255 then .ok (BitVec.ofInt 8 sum) else .error delta

/-- `Printable(b)`: "true exactly when `b <= 0x7F`" (43_io.md R161; PRESUMED, log entry 9). -/
def printable (b : Byte) : Bool := decide (b.toNat ≤ 0x7F)

/-- The loop test: "any of 1 to 255 is \"nonzero\"" (44_loop.md R180). -/
def cellNonzero (b : Byte) : Bool := decide (b ≠ 0#8)

end Sys2Proof.Machine
end

