-- ==== Sys2Proof/Machine/Ops.lean ====
section
/-! DEFINITION. The named operations over the tape, the registers, the stack, the source and the two I/O streams; the
answers of a step; taking a fault; and the dispatch on the machine state that every symbol shares. -/

namespace Sys2Proof.Machine

/-! ## The tape as data -/

/-- What a cell that nothing has written holds: the cells are "all initialized to 0" (10_state.md R21). -/
def Memory.unlisted : Byte := 0#8

/-- The canonical form: addresses strictly rising, and no entry equal to what an unlisted cell holds. -/
abbrev Memory.wf (m : Memory) : Prop :=
  m.Pairwise (fun x y => x.1 < y.1) ∧ ∀ c ∈ m, c.2 ≠ Memory.unlisted

/-- The byte a tape holds at an address, whatever the capacity. -/
def Memory.read : Memory → Nat → Byte
  | [], _ => Memory.unlisted
  | (b, w) :: m, a => if b = a then w else Memory.read m a

/-- Put an entry in front, unless it says what an unlisted cell holds anyway. -/
def Memory.cons (a : Nat) (v : Byte) (m : Memory) : Memory :=
  if v = Memory.unlisted then m else (a, v) :: m

/-- The tape with one cell replaced, kept in the canonical form. -/
def Memory.write : Memory → Nat → Byte → Memory
  | [], a, v => Memory.cons a v []
  | (b, w) :: m, a, v =>
    if b < a then (b, w) :: Memory.write m a v
    else if b = a then Memory.cons a v m
    else Memory.cons a v ((b, w) :: m)

/-! ## The writes of single fields -/

/-- `dp <- v` (00_scope.md R12). -/
def State.setDp (s : State) (v : Nat) : State := { s with dp := v }

/-- `ip <- v` (00_scope.md R12). -/
def State.setIp (s : State) (v : Nat) : State := { s with ip := v }

/-- `ms <- v` (00_scope.md R12). -/
def State.setMs (s : State) (v : MState) : State := { s with ms := v }

/-- The tape replaced. -/
def State.setTape (s : State) (m : Memory) : State := { s with tape := m }

/-- `ip <- ip + 1` (40_dispatch.md R123). -/
def State.advance (s : State) : State := s.setIp (s.ip + 1)

/-! ## Tape access (20_memory.md R51 to R53) -/

/-- `MemRead(a, 1)` (R51); an address at or beyond the capacity fails with `PtrOutOfBounds(a)` (R53; log entry 8). -/
def memRead (s : State) (a : Nat) : Except Fault Byte :=
  if a < s.cap then .ok (s.tape.read a) else .error (.ptrOutOfBounds a)

/-- `MemWrite(a, 1, v)` (R52): "stores the byte or fails identically", and the tape never grows (R54). -/
def memWrite (s : State) (a : Nat) (v : Byte) : Except Fault State :=
  if a < s.cap then .ok (s.setTape (s.tape.write a v)) else .error (.ptrOutOfBounds a)

/-! ## The loop-return stack (20_memory.md R68) -/

/-- `Push(v)`: `v` becomes the new top; it always succeeds. -/
def State.push (s : State) (v : Nat) : State := { s with lrs := s.lrs ++ [v] }

/-- `Pop()`: the top entry and the state without it, or `none` on an empty stack. -/
def State.pop (s : State) : Option (Nat × State) :=
  match s.lrs.getLast? with
  | none => none
  | some t => some (t, { s with lrs := s.lrs.dropLast })

/-! ## Program fetch (20_memory.md R61) -/

/-- `ip_out`: what the driver is told when it asks for the instruction pointer (10_state.md R34). -/
def State.ipOut (s : State) : Nat := s.ip

/-- `ms_out`: what the driver is told of the machine state (10_state.md R34). -/
def State.msOut (s : State) : MState := s.ms

/-- `Fetch(i)`: "`some(src[i])` if `i < L`, else `none`". It is total and has no side effect. -/
def fetchAt (src : List CodePoint) (i : Nat) : Option CodePoint := src[i]?

/-- The fetch word of the symbol the driver finds at `ip_out` (40_dispatch.md R124; 30_encoding.md R86). -/
def State.fetchWord (s : State) : FetchWord := packFetch (fetchAt s.src s.ipOut)

/-! ## The two I/O streams (20_memory.md R70) -/

/-- The `k`-th answer of the input collaborator, counting from 0 (43_io.md R165): the script's, and beyond the script the
free value (R168: there is always an answer; log entry 5). -/
def inputAnswer (script : List (Option Byte)) (k : Nat) : Option Byte :=
  match script[k]? with
  | some r => r
  | none => Config.inputBeyondScript k

/-- The answer the next `In()` will give. -/
def State.nextAnswer (s : State) : Option Byte := inputAnswer s.answers s.inputPos

/-- The state after `In()`: the answer is consumed, a `none` too (43_io.md R165). -/
def State.consumeAnswer (s : State) : State := { s with inputPos := s.inputPos + 1 }

/-- `Out(b)`: "its whole effect is to append `b` to the output log" (43_io.md R162). -/
def State.emit (s : State) (b : Byte) : State := { s with output := s.output ++ [b] }

/-! ## The answers of a step -/

/-- `return Ok`. -/
def succeed (s : State) : StepOut := { state := s, result := .ok, answer := none, outByte := none }

/-- `raise F(info)`: taking a fault (60_exceptions.md R211). There is no handler and no vector in the machine: no state is
saved, because none is changed, and control passes to the driver by the step returning the fault. `s` is the state as the
step found it (for a Read, less the answer it has consumed). There is no return from a fault (R212). -/
def raise (f : Fault) (s : State) : StepOut := { state := s, result := .fault f, answer := none, outByte := none }

/-- A step seen through the host's interface: the state after a success, the fault alone after a fault (log entry 1). -/
def outcomeOf (o : StepOut) : Host.Outcome State Fault Refusal :=
  match o.result with
  | .ok => .next o.state
  | .fault f => .fault f

/-- The dispatch order of 40_dispatch.md R111: "the machine state first, then the symbol". In Halted every symbol faults
with no state change (R112); `skipping` and `running` are what the symbol does in the other two. -/
def dispatchOn (s : State) (skipping : Nat → StepOut) (running : StepOut) : StepOut :=
  match s.ms with
  | .halted => raise .haltedMachine s
  | .skipping d => skipping d
  | .running => running

/-- Skipping, any symbol but the brackets and EOF: "advance ip only; no tape effect" (40_dispatch.md R116). -/
def passOver (s : State) (_d : Nat) : StepOut := succeed s.advance

/-! ## Reset (70_reset_and_hazards.md R240) -/

/-- The making of an engine: capacity 0 is refused (00_scope.md R7), any other gives a fresh machine. -/
def newEngine (cap : Nat) (src : List CodePoint) (answers : List (Option Byte)) : Host.Outcome State Fault Refusal :=
  if cap = 0 then .refused .zeroCapacity else .next (State.fresh cap src answers)

/-- The reset event, which the host may cause between any two steps, from any state. "Nothing of the previous run
survives in the engine"; the run's parameters stay as they are unless the host makes an engine with others (log entry 19). -/
def State.resetEvent (s : State) : State := State.fresh s.cap s.src s.answers

end Sys2Proof.Machine
end

