-- ==== Sys2Proof/Machine/Operands.lean ====
section
/-! DEFINITION. The machine's operand forms. Every operand is implied (30_encoding.md R89), and the one addressing mode is
"the cell at `dp`": no base, index, offset or scaling (20_memory.md R55). -/

namespace Sys2Proof.Machine

/-- The effective address of every data access: `dp` (20_memory.md R55, R60). -/
def State.cellAddress (s : State) : Nat := s.dp

/-- Read the cell operand and go on with its byte; a failing read is the step's fault (20_memory.md R53). -/
def withCell (s : State) (k : Byte → StepOut) : StepOut :=
  match memRead s s.cellAddress with
  | .error f => raise f s
  | .ok b => k b

/-- Write the cell operand, then advance and succeed; a failing write is the step's fault (20_memory.md R53). -/
def storeCell (s : State) (v : Byte) : StepOut :=
  match memWrite s s.cellAddress v with
  | .error f => raise f s
  | .ok s' => succeed s'.advance

end Sys2Proof.Machine
end

