-- ==== Sys2Proof/Machine/CellArith.lean ====
section
/-! DEFINITION. Increment and Decrement (42_cell_arith.md). -/

namespace Sys2Proof.Machine

/-- "read current cell; apply Delta Arithmetic ...; on overflow/underflow fail ValOutOfBounds{data_ptr, delta}; else write
result back" (42_cell_arith.md R151), in the order of R154: read, check, write, advance. -/
def runDelta (delta : Delta) (s : State) : StepOut :=
  withCell s fun b =>
    match applyDelta b delta with
    | .error d => raise (.valOutOfBounds s.dp d) s
    | .ok v => storeCell s v

/-- Increment in every machine state (R151; 40_dispatch.md R112, R116, R119). -/
def stepIncrement (s : State) : StepOut := dispatchOn s (passOver s) (runDelta .plusOne s)

/-- Decrement in every machine state (R152; 40_dispatch.md R112, R116, R119). -/
def stepDecrement (s : State) : StepOut := dispatchOn s (passOver s) (runDelta .minusOne s)

/-- Increment, through the host's interface. -/
def execIncrement (s : State) : Host.Outcome State Fault Refusal := outcomeOf (stepIncrement s)

/-- Decrement, through the host's interface. -/
def execDecrement (s : State) : Host.Outcome State Fault Refusal := outcomeOf (stepDecrement s)

end Sys2Proof.Machine
end

