-- ==== Sys2Proof/Machine/InOut.lean ====
section
/-! DEFINITION. Print and Read (43_io.md). -/

namespace Sys2Proof.Machine

/-- Print in Running (R160): the test is made once, before the output collaborator is reached (90_conflicts.md C5). -/
def runPrint (s : State) : StepOut :=
  withCell s fun b =>
    if printable b then { succeed (s.emit b).advance with outByte := some b } else raise (.unprintableByte b) s

/-- Read in Running (R163): one answer is consumed, whatever it is; the byte is written unchecked (R164). -/
def runRead (s : State) : StepOut :=
  let r := s.nextAnswer
  let o :=
    match r with
    | none => raise .invalidChar s.consumeAnswer
    | some b => storeCell s.consumeAnswer b
  { o with answer := some r }

/-- Print in every machine state (40_dispatch.md R112, R116, R119); only Running makes output (R167). -/
def stepPrint (s : State) : StepOut := dispatchOn s (passOver s) (runPrint s)

/-- Read in every machine state (40_dispatch.md R112, R116, R119); only Running asks for input (R167). -/
def stepRead (s : State) : StepOut := dispatchOn s (passOver s) (runRead s)

/-- Print, through the host's interface. -/
def execPrint (s : State) : Host.Outcome State Fault Refusal := outcomeOf (stepPrint s)

/-- Read, through the host's interface. -/
def execRead (s : State) : Host.Outcome State Fault Refusal := outcomeOf (stepRead s)

end Sys2Proof.Machine
end

