-- ==== Sys2Proof/Machine/Loop.lean ====
section
/-! DEFINITION. LoopStart and LoopEnd (44_loop.md), executed in Running and counted in Skipping (40_dispatch.md). -/

namespace Sys2Proof.Machine

/-- LoopStart in Running (R180): the value pushed is `ip` before the advance, the index of the `[` itself. -/
def runLoopStart (s : State) : StepOut :=
  withCell s fun b => succeed (if cellNonzero b then s.push s.ip else s.setMs (.skipping 1)).advance

/-- LoopEnd in Running (R181): "set the instruction pointer to the popped value — do not additionally advance". -/
def runLoopEnd (s : State) : StepOut :=
  match s.pop with
  | none => raise .stackUnderflow s
  | some (t, s') => succeed (s'.setIp t)

/-- LoopStart in Skipping(d) (40_dispatch.md R114): one deeper; the cell is not read and nothing is pushed. -/
def countLoopStart (s : State) (d : Nat) : StepOut := succeed (s.setMs (.skipping (d + 1))).advance

/-- LoopEnd in Skipping(d) (40_dispatch.md R113): one shallower, and Running at zero; the stack is not popped. -/
def countLoopEnd (s : State) (d : Nat) : StepOut :=
  succeed (s.setMs (if d - 1 = 0 then .running else .skipping (d - 1))).advance

/-- LoopStart in every machine state. -/
def stepLoopStart (s : State) : StepOut := dispatchOn s (countLoopStart s) (runLoopStart s)

/-- LoopEnd in every machine state. -/
def stepLoopEnd (s : State) : StepOut := dispatchOn s (countLoopEnd s) (runLoopEnd s)

/-- LoopStart, through the host's interface. -/
def execLoopStart (s : State) : Host.Outcome State Fault Refusal := outcomeOf (stepLoopStart s)

/-- LoopEnd, through the host's interface. -/
def execLoopEnd (s : State) : Host.Outcome State Fault Refusal := outcomeOf (stepLoopEnd s)

end Sys2Proof.Machine
end

