-- ==== Sys2Proof/Machine/NonInstr.lean ====
section
/-! DEFINITION. The two symbols that are no instructions: EOF and Other (40_dispatch.md). -/

namespace Sys2Proof.Machine

/-- EOF in Running (R117): halt. `ip` stays (92_eei_decisions.md D8; log entry 10), and the stack is not looked at (R127). -/
def runEof (s : State) : StepOut := succeed (s.setMs .halted)

/-- EOF in Skipping(d) (R115): the one way an unclosed loop is reported. -/
def skipEof (s : State) (d : Nat) : StepOut := raise (.mismatchedBrackets s.ip d) s

/-- EOF in every machine state. -/
def stepEof (s : State) : StepOut := dispatchOn s (skipEof s) (runEof s)

/-- Other in every machine state: "advance ip; no-op" in Running (R118) and in Skipping (R116). The character it carries is
never looked at (30_encoding.md R83). -/
def stepOther (_c : CodePoint) (s : State) : StepOut := dispatchOn s (passOver s) (succeed s.advance)

/-- EOF, through the host's interface. -/
def execEof (s : State) : Host.Outcome State Fault Refusal := outcomeOf (stepEof s)

/-- Other, through the host's interface. -/
def execOther (c : CodePoint) (s : State) : Host.Outcome State Fault Refusal := outcomeOf (stepOther c s)

end Sys2Proof.Machine
end

