-- ==== Sys2Proof/Machine/Pointer.lean ====
section
/-! DEFINITION. MoveRight and MoveLeft (41_pointer.md). -/

namespace Sys2Proof.Machine

/-- MoveRight in Running (R140): "fails PtrOutOfBounds(data_ptr) unless data_ptr+1 < capacity; else data_ptr += 1". -/
def runMoveRight (s : State) : StepOut :=
  if s.dp + 1 < s.cap then succeed (s.setDp (s.dp + 1)).advance else raise (.ptrOutOfBounds s.dp) s

/-- MoveLeft in Running (R141): "fails PtrOutOfBounds(data_ptr) unless data_ptr > 0; else data_ptr -= 1". -/
def runMoveLeft (s : State) : StepOut :=
  if s.dp > 0 then succeed (s.setDp (s.dp - 1)).advance else raise (.ptrOutOfBounds s.dp) s

/-- MoveRight in every machine state (40_dispatch.md R112, R116, R119). -/
def stepMoveRight (s : State) : StepOut := dispatchOn s (passOver s) (runMoveRight s)

/-- MoveLeft in every machine state (40_dispatch.md R112, R116, R119). -/
def stepMoveLeft (s : State) : StepOut := dispatchOn s (passOver s) (runMoveLeft s)

/-- MoveRight, through the host's interface. -/
def execMoveRight (s : State) : Host.Outcome State Fault Refusal := outcomeOf (stepMoveRight s)

/-- MoveLeft, through the host's interface. -/
def execMoveLeft (s : State) : Host.Outcome State Fault Refusal := outcomeOf (stepMoveLeft s)

end Sys2Proof.Machine
end

