-- ==== Sys2Proof/Machine/Dispatch.lean ====
section
/-! DEFINITION. One arm per symbol: the engine's step seen through the host's interface (40_dispatch.md R111). -/

namespace Sys2Proof.Machine

def exec (i : Instr) (s : State) : Host.Outcome State Fault Refusal :=
  match i with
  | .moveRight => Sys2Proof.Machine.execMoveRight s
  | .moveLeft => Sys2Proof.Machine.execMoveLeft s
  | .increment => Sys2Proof.Machine.execIncrement s
  | .decrement => Sys2Proof.Machine.execDecrement s
  | .print => Sys2Proof.Machine.execPrint s
  | .read => Sys2Proof.Machine.execRead s
  | .loopStart => Sys2Proof.Machine.execLoopStart s
  | .loopEnd => Sys2Proof.Machine.execLoopEnd s
  | .eof => Sys2Proof.Machine.execEof s
  | .other c => Sys2Proof.Machine.execOther c s

end Sys2Proof.Machine
end

