-- ==== Sys2Proof/Machine/Step.lean ====
section
/-! DEFINITION. One driver cycle less its stop test (40_dispatch.md R124), and the placing of an instruction for it. -/

namespace Sys2Proof.Machine

/-- Poll `ip`, fetch, decode, feed. Whether to go round again is the driver's (`Run.cycle`; log entry 2). -/
def step (s : State) : Host.Outcome State Fault Refusal := exec (decode s.fetchWord) s

/-- The source with the item at index `i` replaced by an optional character: an absent one ends the source at `i`; a
present one stands at `i`, after padding characters (code point 0, which decode to Other) where the source is shorter. -/
def placeAt (src : List CodePoint) (i : Nat) : Option CodePoint → List CodePoint
  | none => src.take i
  | some c => src.take i ++ List.replicate (i - src.length) 0#21 ++ c :: src.drop (i + 1)

/-- The state whose next fetch finds the fetch word `w`: the host's loading of the program source (log entry 4). -/
def State.withFetchWord (s : State) (_nbits w : Nat) : State :=
  { s with src := placeAt s.src s.ip (presentChar (BitVec.ofNat 22 w)) }

end Sys2Proof.Machine
end

