-- ==== Sys2Proof/Machine/Codes.lean ====
section
/-! DEFINITION. The spec's own numbers for a binary dump of symbols, machine states, faults and results. The machine never
uses them (30_encoding.md R93; 10_state.md R30; 60_exceptions.md R208). -/

namespace Sys2Proof.Machine

/-- The tag of a symbol on a binary `sym_in` (30_encoding.md R93). -/
def symbolTag : Instr → BitVec 4
  | .moveRight => 0
  | .moveLeft => 1
  | .increment => 2
  | .decrement => 3
  | .print => 4
  | .read => 5
  | .loopStart => 6
  | .loopEnd => 7
  | .eof => 8
  | .other _ => 9

/-- The tag of the machine state, and beside it the depth, meaningful only with tag 1 (10_state.md R30). -/
def machineStateCode : MState → BitVec 2 × Option Nat
  | .running => (0, none)
  | .skipping d => (1, some d)
  | .halted => (2, none)

/-- The number of a fault (60_exceptions.md R208). -/
def faultCode : Fault → Nat
  | .ptrOutOfBounds _ => 0
  | .valOutOfBounds _ _ => 1
  | .invalidChar => 2
  | .stackUnderflow => 3
  | .haltedMachine => 4
  | .mismatchedBrackets _ _ => 5
  | .unprintableByte _ => 6

/-- The one-bit `Ok`/`Fault` flag, and beside it the number of the fault, if any (60_exceptions.md R208). DESIGN CHOICE (log
entry 28): R208 does not say which value of the flag means Fault; here it is `true`, a 1. -/
def resultCode : Result → Bool × Option Nat
  | .ok => (false, none)
  | .fault f => (true, some (faultCode f))

end Sys2Proof.Machine
end

