-- ==== Sys2Proof/Machine/Collaborators.lean ====
section
/-! DEFINITION. The two collaborators outside the core, as far as the spec gives them (43_io.md R162, R166). The engine
does not depend on this file: it sees only an answer, and an output log that grows. -/

namespace Sys2Proof.Machine

/-- `InputLineToByte` (R166): "take its first character, require that character to encode as exactly one byte in UTF-8;
otherwise report unavailable". The rest of the line is discarded. -/
def lineAnswer : List CodePoint → Option Byte
  | [] => none
  | c :: _ => if c.toNat ≤ 0x7F then some (c.setWidth 8) else none

/-- The characters of a line as the collaborator counts them: with its line feed, or without, which the spec leaves open
(R166; 92_eei_decisions.md D16; log entry 18). -/
def lineCharacters (text : List CodePoint) : List CodePoint :=
  if Config.lineKeepsTerminator then text ++ [0x0A#21] else text

/-- The answers the reference collaborator gives for lines of text: one line per call. -/
def referenceAnswers (lines : List (List CodePoint)) : List (Option Byte) :=
  lines.map fun text => lineAnswer (lineCharacters text)

/-- `print_char(byte)` (R162): "require the byte to form a valid standalone UTF-8 scalar; if so, write it to the output
stream and report the written text; otherwise report failure". The new log and the text, which the engine ignores. -/
def printChar (b : Byte) (log : List Byte) : Option (List Byte × List CodePoint) :=
  if printable b then some (log ++ [b], [b.setWidth 21]) else none

/-- The input collaborator's contract on the answers of a script (R164): every byte it delivers is at most 0x7F. -/
def inputInContract (script : List (Option Byte)) : Prop := ∀ b : Byte, some b ∈ script → b.toNat ≤ 0x7F

end Sys2Proof.Machine
end

