-- ==== Sys2Proof/Machine/Engine.lean ====
section
/-! DEFINITION. The engine's step with ALL its outputs (40_dispatch.md R110): unlike `exec`, whose fault carries no state,
it gives the state after a fault too, and the collaborator call the step made. -/

namespace Sys2Proof.Machine

/-- `EngineStep(sym)` (40_dispatch.md R122): total, and for any symbol, be it the one at `ip` or not (R110). -/
def engineStep (i : Instr) (s : State) : StepOut :=
  match i with
  | .moveRight => stepMoveRight s
  | .moveLeft => stepMoveLeft s
  | .increment => stepIncrement s
  | .decrement => stepDecrement s
  | .print => stepPrint s
  | .read => stepRead s
  | .loopStart => stepLoopStart s
  | .loopEnd => stepLoopEnd s
  | .eof => stepEof s
  | .other c => stepOther c s

/-- The state after a sequence of symbols, presented one after another whatever each step returns: a caller in contract or
not (93_implementation_defined.md U9), which may go on after a fault (60_exceptions.md R220). -/
def feedAll : List Instr → State → State
  | [], s => s
  | i :: is, s => feedAll is (engineStep i s).state

end Sys2Proof.Machine
end

