-- ==== Sys2Proof/Machine/Driver.lean ====
section
/-! DEFINITION. The driver's contract, "poll-decode-feed-until-terminal" (40_dispatch.md R124), and the run built of it
(R125). -/

namespace Sys2Proof.Machine

/-- The start of a run: a fresh machine with the parameters of the run, and no outcome yet (R125). -/
def Run.start (cap : Nat) (src : List CodePoint) (answers : List (Option Byte)) : Run :=
  { state := State.fresh cap src answers, outcome := none }

/-- What the driver makes of a step: stop on a fault, stop when the machine is halted, else go round again (R124). -/
def outcomeAfter (o : StepOut) : Option RunOutcome :=
  match o.result, o.state.msOut with
  | .fault f, _ => some (.faulted f)
  | .ok, .halted => some .succeeded
  | .ok, .running => none
  | .ok, .skipping _ => none

/-- `Cycle()` (R124). A driver that has stopped polls no more: "the first fault aborts the run immediately" (R125). -/
def Run.cycle (r : Run) : Run :=
  match r.outcome with
  | some _ => r
  | none =>
    let o := engineStep (decode r.state.fetchWord) r.state
    { state := o.state, outcome := outcomeAfter o }

/-- `n` cycles. -/
def Run.cycles : Nat → Run → Run
  | 0, r => r
  | n + 1, r => Run.cycles n r.cycle

end Sys2Proof.Machine
end

