-- ==== Sys2Proof/Safety.lean ====
section
/-! DEFINITION. What a good state is, and the terms the statements use: bracket matching in the source, and the loops a
sequence of symbols enters and leaves. -/

namespace Sys2Proof.Machine

/-- What holds "in every state reachable from reset by any sequence of steps, whatever symbols are presented". -/
structure State.Inv (s : State) : Prop where
  /-- 00_scope.md R7. -/
  capPos : 1 ≤ s.cap
  /-- "0 <= dp < C" (41_pointer.md R142). -/
  dpInRange : s.dp < s.cap
  /-- The tape is in the model's canonical form. -/
  tapeWf : s.tape.wf
  /-- "Cell a exists for every integer a with 0 <= a < C and for no other a" (10_state.md R21). -/
  tapeInRange : ∀ c ∈ s.tape, c.1 < s.cap
  /-- "the entries of lrs are strictly increasing from bottom to top" (10_state.md R27). -/
  lrsRising : s.lrs.Pairwise (· < ·)
  /-- "and every entry is strictly less than ip" (10_state.md R27). -/
  lrsBelowIp : ∀ e ∈ s.lrs, e < s.ip
  /-- "Skipping(0) does not exist" (10_state.md R28). -/
  depthPos : ∀ d, s.ms = .skipping d → 1 ≤ d
  /-- Only printable bytes reach the output collaborator (43_io.md R162). -/
  outputPrintable : ∀ b ∈ s.output, b.toNat ≤ 0x7F

/-- Two faults are of one kind, whatever they carry: the seven kinds of the closed set (60_exceptions.md R200). -/
inductive Fault.SameKind : Fault → Fault → Prop
  | ptrOutOfBounds (p q : Nat) : SameKind (.ptrOutOfBounds p) (.ptrOutOfBounds q)
  | valOutOfBounds (a b : Nat) (d e : Delta) : SameKind (.valOutOfBounds a d) (.valOutOfBounds b e)
  | invalidChar : SameKind .invalidChar .invalidChar
  | stackUnderflow : SameKind .stackUnderflow .stackUnderflow
  | haltedMachine : SameKind .haltedMachine .haltedMachine
  | mismatchedBrackets (p q m n : Nat) : SameKind (.mismatchedBrackets p m) (.mismatchedBrackets q n)
  | unprintableByte (b c : Byte) : SameKind (.unprintableByte b) (.unprintableByte c)

/-- The five pieces of engine state are the same (10_state.md R20). -/
def State.sameEngine (s t : State) : Prop :=
  t.tape = s.tape ∧ t.dp = s.dp ∧ t.ip = s.ip ∧ t.lrs = s.lrs ∧ t.ms = s.ms

/-- One cell was stored to: it reads back the byte, and every other address of the tape, in range or not, reads as before. -/
def State.storedOnly (s t : State) (addr : Nat) (v : Byte) : Prop :=
  memRead t addr = .ok v ∧ ∀ a, a ≠ addr → memRead t a = memRead s a

/-- The parameters of the run are the same (40_dispatch.md R125). -/
def State.sameParams (s t : State) : Prop :=
  t.cap = s.cap ∧ t.src = s.src ∧ t.answers = s.answers

/-- The two I/O streams stand where they stood (10_state.md R33). -/
def State.sameStreams (s t : State) : Prop :=
  t.inputPos = s.inputPos ∧ t.output = s.output

/-- How many characters of the source, from index `a` up to but not including `b`, decode to a symbol. -/
def countBetween (src : List CodePoint) (i : Instr) (a b : Nat) : Nat :=
  ((src.take b).drop a).countP fun c => decide (ofCodePoint c = i)

/-- The bracket depth met at index `q` by a reader who stands after the `[` at index `p`: it begins at one, "every `[` adds
one to the depth, every `]` subtracts one" (44_loop.md R183), counting the characters at `p + 1` up to `q - 1`. -/
def bracketDepth (src : List CodePoint) (p q : Nat) : Int :=
  1 + (countBetween src .loopStart (p + 1) q : Int) - (countBetween src .loopEnd (p + 1) q : Int)

/-- The `]` at index `q` is the textual match of the `[` at index `p` (44_loop.md R183): it is the one that brings the depth
to zero, the depth having been at least one all the way up to it. -/
def matchingBracket (src : List CodePoint) (p q : Nat) : Prop :=
  p < q ∧ (fetchAt src p).map ofCodePoint = some .loopStart ∧ (fetchAt src q).map ofCodePoint = some .loopEnd ∧
    bracketDepth src p q = 1 ∧ ∀ r, p < r → r ≤ q → 1 ≤ bracketDepth src p r

/-- `k` steps, one after another, up to the first fault. -/
def steps : Nat → State → Host.Outcome State Fault Refusal
  | 0, s => .next s
  | k + 1, s =>
    match step s with
    | .next t => steps k t
    | .fault f => .fault f
    | .refused r => .refused r

/-- A symbol presented in a state enters a loop: LoopStart in Running on a nonzero cell (10_state.md R26). -/
def entersLoop (i : Instr) (s : State) : Bool :=
  decide (i = .loopStart) && decide (s.ms = .running) && decide (s.dp < s.cap) && cellNonzero (s.tape.read s.dp)

/-- A symbol presented in a state leaves a loop: LoopEnd in Running on a stack that is not empty (10_state.md R26). -/
def leavesLoop (i : Instr) (s : State) : Bool :=
  decide (i = .loopEnd) && decide (s.ms = .running) && decide (s.lrs ≠ [])

/-- How many loops a sequence of symbols enters, from a state. -/
def loopsEntered : List Instr → State → Nat
  | [], _ => 0
  | i :: is, s => (entersLoop i s).toNat + loopsEntered is (engineStep i s).state

/-- How many loops a sequence of symbols leaves, from a state. -/
def loopsLeft : List Instr → State → Nat
  | [], _ => 0
  | i :: is, s => (leavesLoop i s).toNat + loopsLeft is (engineStep i s).state

end Sys2Proof.Machine
end

