-- ==== Sys2Proof/Certificates/Slice0/Obligations.lean ====
section
/-! DEFINITION. The statements for the provers. -/

open Sys2Proof Sys2Proof.Machine

/-! ## The decoder and the fetch (30_encoding.md, 20_memory.md) -/

/-- Decode and encode agree: no symbol is lost on the way through its fetch word, whatever character Other carries. -/
def Obligations.DecodeOfEncodeIsIdentity : Prop :=
  ∀ i : Instr, i.wellFormed = true → decode (encode i) = i

/-- The other direction: a word with a character present is the one word of its symbol; a word without one is EOF's
whatever its other bits; and the decoder gives well-formed symbols only. That the encoder gives EOF as 0 is the model's
choice, R86 letting the `cp` bits hold anything (log entry 7). -/
def Obligations.EncodeOfDecodeIsTheWord : Prop :=
  ∀ w : FetchWord,
    (decode w).wellFormed = true ∧
    (w.getLsbD 21 = true → encode (decode w) = w) ∧
    (w.getLsbD 21 = false → decode w = .eof ∧ encode (decode w) = 0#22)

/-- R87's sentence on match and mask, every row: the eight, EOF, and Other as "every word with v = 1 that matches none of the
eight", carrying its code point. The word's layout is decision D3; the eight code points are decision D4 and general
knowledge (R85; log entry 6). -/
def Obligations.DecoderIsTheMatchAndMaskTable : Prop :=
  ∀ w : FetchWord,
    (w &&& 0x3FFFFF#22 = 0x20003E#22 ↔ decode w = .moveRight) ∧
    (w &&& 0x3FFFFF#22 = 0x20003C#22 ↔ decode w = .moveLeft) ∧
    (w &&& 0x3FFFFF#22 = 0x20002B#22 ↔ decode w = .increment) ∧
    (w &&& 0x3FFFFF#22 = 0x20002D#22 ↔ decode w = .decrement) ∧
    (w &&& 0x3FFFFF#22 = 0x20002E#22 ↔ decode w = .print) ∧
    (w &&& 0x3FFFFF#22 = 0x20002C#22 ↔ decode w = .read) ∧
    (w &&& 0x3FFFFF#22 = 0x20005B#22 ↔ decode w = .loopStart) ∧
    (w &&& 0x3FFFFF#22 = 0x20005D#22 ↔ decode w = .loopEnd) ∧
    (w &&& 0x200000#22 = 0x000000#22 ↔ decode w = .eof) ∧
    (∀ c, decode w = .other c ↔ w &&& 0x200000#22 = 0x200000#22 ∧ w.setWidth 21 = c ∧ c ∉ instructionCodePoints)

/-- Words of 95_test_vectors.md part 2, one for each symbol and the corners: the bits below an absent `v` do not matter, a
neighbour of an instruction character is Other, and so is a character whose low byte only is that of `+`. The word's layout
is decision D3; the code points are decision D4 and general knowledge (R85; log entry 6). -/
def Obligations.DecoderReadsTheTestVectors : Prop :=
  decode 0x20003E#22 = .moveRight ∧ decode 0x20003C#22 = .moveLeft ∧ decode 0x20002B#22 = .increment ∧
  decode 0x20002D#22 = .decrement ∧ decode 0x20002E#22 = .print ∧ decode 0x20002C#22 = .read ∧
  decode 0x20005B#22 = .loopStart ∧ decode 0x20005D#22 = .loopEnd ∧ decode 0x00002B#22 = .eof ∧
  decode 0x1FFFFF#22 = .eof ∧ decode 0x20003D#22 = .other 0x3D#21 ∧ decode 0x20012B#22 = .other 0x12B#21 ∧
  decode 0x20FF0B#22 = .other 0xFF0B#21 ∧ decode 0x3FFFFF#22 = .other 0x1FFFFF#21

/-- A step runs the decoded symbol: the character at `ip` where there is one, EOF at every index from `L` on. -/
def Obligations.StepRunsTheSymbolAtIp : Prop :=
  ∀ s : State,
    (∀ i, decode s.fetchWord = i → i.wellFormed = true → step s = exec i s) ∧
    (∀ c, s.src[s.ip]? = some c → step s = exec (ofCodePoint c) s) ∧
    (s.src.length ≤ s.ip → step s = exec .eof s)

/-- A word placed by `withFetchWord` is the one the next step decodes and runs, and nothing but the source is changed. -/
def Obligations.PlacedWordIsRunByTheNextStep : Prop :=
  ∀ (s : State) (nbits w : Nat), w < 2 ^ 22 →
    let t := s.withFetchWord nbits w
    (∃ i, decodeTableWord nbits w = some i ∧ step t = exec i t) ∧
    (∀ k, k < s.ip → k < s.src.length → t.src[k]? = s.src[k]?) ∧
    s.sameEngine t ∧ s.sameStreams t ∧ t.cap = s.cap ∧ t.answers = s.answers

/-- `exec` is the engine's step seen through the host's interface, for every symbol and state. -/
def Obligations.ExecIsTheEngineStepSeenByTheHost : Prop :=
  ∀ (i : Instr) (s : State),
    ((engineStep i s).result = .ok ∧ exec i s = .next (engineStep i s).state) ∨
    (∃ f, (engineStep i s).result = .fault f ∧ exec i s = .fault f)

/-! ## Reset (10_state.md R35, 70_reset_and_hazards.md R240) -/

/-- R35: every reset value, for the state after reset and for a fresh machine of any capacity with any program and input. -/
def Obligations.FreshMachineHasTheResetValues : Prop :=
  ∀ s : State, (s = State.reset ∨ ∃ cap src answers, s = State.fresh cap src answers) →
    (∀ a, a < s.cap → memRead s a = .ok 0#8) ∧ s.ms = .running ∧ s.dp = 0 ∧ s.ip = 0 ∧ s.lrs = [] ∧
    s.output = [] ∧ s.inputPos = 0

/-- Making an engine of capacity 0 is refused (D12; log entry 3), and any other capacity gives a fresh machine; the reset
event (R240, decision D11) gives one from any state, every value of R35 included. That the reset event keeps the run's
parameters is the model's choice (log entry 19). -/
def Obligations.ResetMakesAFreshEngine : Prop :=
  (∀ (cap : Nat) (src : List CodePoint) (answers : List (Option Byte)),
    (cap = 0 → newEngine cap src answers = .refused .zeroCapacity) ∧
    (1 ≤ cap → newEngine cap src answers = .next (State.fresh cap src answers) ∧ (State.fresh cap src answers).Inv)) ∧
  (∀ s : State,
    let t := s.resetEvent
    t = State.fresh s.cap s.src s.answers ∧ s.sameParams t ∧ (∀ a, a < s.cap → memRead t a = .ok 0#8) ∧ t.ms = .running ∧
    t.dp = 0 ∧ t.ip = 0 ∧ t.lrs = [] ∧ t.output = [] ∧ t.inputPos = 0 ∧ (1 ≤ s.cap → t.Inv))

/-! ## The tape and the stack (20_memory.md) -/

/-- R51 and R52 in range: a read gives the cell's byte; a write stores the byte in that cell and no other, keeps the tape's
canonical form, and changes nothing else. -/
def Obligations.TapeWriteStoresOneCell : Prop :=
  ∀ (s : State) (a : Nat) (v : Byte), a < s.cap → s.tape.wf →
    (∃ b, memRead s a = .ok b) ∧
    ∃ t, memWrite s a v = .ok t ∧ s.storedOnly t a v ∧ t.tape.wf ∧
      t.dp = s.dp ∧ t.ip = s.ip ∧ t.lrs = s.lrs ∧ t.ms = s.ms ∧ s.sameStreams t ∧ s.sameParams t

/-- A write of the value already present leaves the tape, as data, as it was (R52): canonical tapes that read alike are
equal. -/
def Obligations.RewritingACellLeavesTheTapeEqual : Prop :=
  ∀ (s t : State) (a : Nat) (b : Byte), s.tape.wf → memRead s a = .ok b → memWrite s a b = .ok t → t = s

/-- Out of range both accesses fail (R51, R52) with PtrOutOfBounds of the failing address, which is R53's decision (log
entry 8); under the invariant no access at `dp` does. -/
def Obligations.TapeAccessFailsFromTheCapacityOn : Prop :=
  ∀ (s : State) (a : Nat) (v : Byte),
    (s.cap ≤ a → memRead s a = .error (.ptrOutOfBounds a) ∧ memWrite s a v = .error (.ptrOutOfBounds a)) ∧
    (s.Inv → ∃ b t, memRead s s.cellAddress = .ok b ∧ memWrite s s.cellAddress v = .ok t)

/-- R68: the last value pushed is the one popped; an empty stack gives nothing, and LoopEnd, the one instruction that pops,
then raises StackUnderflow and leaves the stack empty. -/
def Obligations.StackIsLastInFirstOut : Prop :=
  ∀ (s : State) (v : Nat),
    (s.push v).pop = some (v, s) ∧ (s.push v).lrs = s.lrs ++ [v] ∧
    (s.lrs = [] → s.pop = none ∧
      (s.ms = .running → exec .loopEnd s = .fault .stackUnderflow ∧ (engineStep .loopEnd s).state.lrs = [])) ∧
    (∀ t u, s.pop = some (t, u) → s.lrs = u.lrs ++ [t] ∧ u.push t = s)

/-! ## Halted and Skipping (40_dispatch.md) -/

/-- R112: in Halted every symbol, EOF and Other included, faults HaltedMachine, with no state change, no input request and
no output. -/
def Obligations.HaltedFaultsOnEverySymbol : Prop :=
  ∀ (i : Instr) (s : State), s.ms = .halted →
    exec i s = .fault .haltedMachine ∧
    engineStep i s = { state := s, result := .fault .haltedMachine, answer := none, outByte := none }

/-- R113: a `]` met in Skipping(d) is counted, not executed; at depth one the machine goes back to Running. -/
def Obligations.SkippedLoopEndIsCounted : Prop :=
  ∀ (s : State) (d : Nat), s.ms = .skipping d → 1 ≤ d →
    (d = 1 → exec .loopEnd s = .next { s with ms := .running, ip := s.ip + 1 }) ∧
    (2 ≤ d → exec .loopEnd s = .next { s with ms := .skipping (d - 1), ip := s.ip + 1 })

/-- R114: a `[` met in Skipping(d) is counted, whatever the cell holds, and nothing is pushed. -/
def Obligations.SkippedLoopStartIsCounted : Prop :=
  ∀ (s : State) (d : Nat), s.ms = .skipping d →
    exec .loopStart s = .next { s with ms := .skipping (d + 1), ip := s.ip + 1 }

/-- R115: EOF in Skipping(d) faults with the current `ip` and `d`. That `ms` stays Skipping(d) and nothing else changes rests
on 92_eei_decisions.md D7 (log entry 11). -/
def Obligations.EofWhileSkippingFaults : Prop :=
  ∀ (s : State) (d : Nat), s.ms = .skipping d →
    exec .eof s = .fault (.mismatchedBrackets s.ip d) ∧ (engineStep .eof s).state = s

/-- R116: every other symbol met in Skipping is passed over: only `ip` moves, and nothing faults, is asked for or is output,
whatever the cell, the pointer and the stack are. -/
def Obligations.SkippedSymbolOnlyAdvances : Prop :=
  ∀ (i : Instr) (s : State) (d : Nat), s.ms = .skipping d → i ≠ .loopStart → i ≠ .loopEnd → i ≠ .eof →
    exec i s = .next { s with ip := s.ip + 1 } ∧
    engineStep i s = { state := { s with ip := s.ip + 1 }, result := .ok, answer := none, outByte := none }

/-- Skipping is inert, brackets and EOF included: no step in it changes the tape, the pointer or the stack, asks for input or
makes output. For the faulting EOF this rests on decision D7, and for what is presented after it on D9 (log entry 11). -/
def Obligations.SkippingTouchesNoData : Prop :=
  ∀ (is : List Instr) (s : State) (d : Nat), s.ms = .skipping d →
    (∀ k, k < is.length → ∃ e, (feedAll (is.take k) s).ms = .skipping e) →
    (feedAll is s).tape = s.tape ∧ (feedAll is s).dp = s.dp ∧ (feedAll is s).lrs = s.lrs ∧ s.sameStreams (feedAll is s)

/-! ## Running: the symbols that are no instructions -/

/-- R117: EOF in Running halts, with success, whatever the stack holds (R127). That `ip` stays is the spec's decision D8 (log
entry 10). -/
def Obligations.EofWhileRunningHalts : Prop :=
  ∀ s : State, s.ms = .running → exec .eof s = .next { s with ms := .halted }

/-- R118: Other in Running advances `ip` and does nothing else, whatever character it carries. -/
def Obligations.OtherWhileRunningAdvances : Prop :=
  ∀ (s : State) (c : CodePoint), s.ms = .running → exec (.other c) s = .next { s with ip := s.ip + 1 }

/-! ## Running: the eight instructions -/

/-- R140: one cell to the right, or PtrOutOfBounds of the unmoved pointer at the last cell; the tape, the stack and the
machine state stay. That the payload is the unmoved pointer is decision D23 (log entry 21). -/
def Obligations.MoveRightMovesOrFaults : Prop :=
  ∀ s : State, s.ms = .running →
    (s.dp + 1 < s.cap → exec .moveRight s = .next { s with dp := s.dp + 1, ip := s.ip + 1 }) ∧
    (¬ s.dp + 1 < s.cap → exec .moveRight s = .fault (.ptrOutOfBounds s.dp) ∧ (engineStep .moveRight s).state = s)

/-- R141: one cell to the left, or PtrOutOfBounds(0) at the first cell. -/
def Obligations.MoveLeftMovesOrFaults : Prop :=
  ∀ s : State, s.ms = .running →
    (0 < s.dp → exec .moveLeft s = .next { s with dp := s.dp - 1, ip := s.ip + 1 }) ∧
    (s.dp = 0 → exec .moveLeft s = .fault (.ptrOutOfBounds 0) ∧ (engineStep .moveLeft s).state = s)

/-- R150: Delta Arithmetic is the exact integer sum, and fails exactly where that leaves [0, 255], reporting the delta. -/
def Obligations.DeltaArithmeticIsExactOrFails : Prop :=
  ∀ (b : Byte) (delta : Delta),
    (∀ v : Byte, applyDelta b delta = .ok v ↔ (v.toNat : Int) = (b.toNat : Int) + delta.toInt) ∧
    (∀ d, applyDelta b delta = .error d ↔
      d = delta ∧ ((b.toNat : Int) + delta.toInt < 0 ∨ 255 < (b.toNat : Int) + delta.toInt)) ∧
    (delta.toInt = 1 ∨ delta.toInt = -1)

/-- R151: the selected cell one up, that cell only; ValOutOfBounds with delta +1 exactly on 255, and then nothing changes. That
the fault carries the address and the attempted delta is decision D22 (log entry 21). -/
def Obligations.IncrementAddsOneOrFaults : Prop :=
  ∀ (s : State) (b : Byte), s.ms = .running → s.tape.wf → memRead s s.cellAddress = .ok b →
    (b ≠ 255#8 → ∃ t, exec .increment s = .next t ∧ s.storedOnly t s.cellAddress (b + 1#8) ∧ t.ip = s.ip + 1 ∧
      t.dp = s.dp ∧ t.lrs = s.lrs ∧ t.ms = s.ms ∧ s.sameStreams t ∧ s.sameParams t) ∧
    (b = 255#8 → exec .increment s = .fault (.valOutOfBounds s.dp .plusOne) ∧ (engineStep .increment s).state = s)

/-- R152: the selected cell one down, that cell only; ValOutOfBounds with delta -1 exactly on 0, and then nothing changes. That
the fault carries the address and the attempted delta is decision D22 (log entry 21). -/
def Obligations.DecrementSubtractsOneOrFaults : Prop :=
  ∀ (s : State) (b : Byte), s.ms = .running → s.tape.wf → memRead s s.cellAddress = .ok b →
    (b ≠ 0#8 → ∃ t, exec .decrement s = .next t ∧ s.storedOnly t s.cellAddress (b - 1#8) ∧ t.ip = s.ip + 1 ∧
      t.dp = s.dp ∧ t.lrs = s.lrs ∧ t.ms = s.ms ∧ s.sameStreams t ∧ s.sameParams t) ∧
    (b = 0#8 → exec .decrement s = .fault (.valOutOfBounds s.dp .minusOne) ∧ (engineStep .decrement s).state = s)

/-- R160: a printable byte goes to the output collaborator and `ip` advances, nothing else changing; any other faults and
makes no output. That printable means at most 0x7F rests on D14 and on general knowledge (R161; log entry 9). -/
def Obligations.PrintEmitsTheCellOrFaults : Prop :=
  ∀ (s : State) (b : Byte), s.ms = .running → memRead s s.cellAddress = .ok b →
    (b.toNat ≤ 0x7F → exec .print s = .next { s with output := s.output ++ [b], ip := s.ip + 1 } ∧
      (engineStep .print s).outByte = some b) ∧
    (0x80 ≤ b.toNat → exec .print s = .fault (.unprintableByte b) ∧ (engineStep .print s).state = s ∧
      (engineStep .print s).outByte = none)

/-- R163: the answered byte is stored in the selected cell, whatever it is and whatever was there, that cell only; on `none`
the step faults with the answer consumed and the engine unchanged. -/
def Obligations.ReadStoresTheAnswerOrFaults : Prop :=
  ∀ s : State, s.ms = .running → s.tape.wf → s.dp < s.cap →
    (∀ b, s.nextAnswer = some b → ∃ t, exec .read s = .next t ∧ s.storedOnly t s.cellAddress b ∧ t.ip = s.ip + 1 ∧
      t.inputPos = s.inputPos + 1 ∧ t.dp = s.dp ∧ t.lrs = s.lrs ∧ t.ms = s.ms ∧ t.output = s.output ∧ s.sameParams t) ∧
    (s.nextAnswer = none → exec .read s = .fault .invalidChar ∧
      (engineStep .read s).state = { s with inputPos := s.inputPos + 1 })

/-- The answers are the run's sequence in order (R165): each Read takes the answer at the input position, scripted ones as
they stand, whether it then faults or not, and the next Read is one further on. -/
def Obligations.ReadsTakeTheAnswersInOrder : Prop :=
  ∀ s : State, s.ms = .running →
    (engineStep .read s).answer = some s.nextAnswer ∧ (engineStep .read s).state.inputPos = s.inputPos + 1 ∧
    (∀ h : s.inputPos < s.answers.length, s.nextAnswer = s.answers[s.inputPos]) ∧
    (∀ h : s.inputPos + 1 < s.answers.length, (engineStep .read s).state.nextAnswer = s.answers[s.inputPos + 1])

/-- R180: a nonzero cell pushes the index of the `[` itself, a zero cell starts skipping at depth one and pushes nothing; both
advance, and neither changes the cell. -/
def Obligations.LoopStartEntersOrSkips : Prop :=
  ∀ (s : State) (b : Byte), s.ms = .running → memRead s s.cellAddress = .ok b →
    (b ≠ 0#8 → exec .loopStart s = .next { s with lrs := s.lrs ++ [s.ip], ip := s.ip + 1 }) ∧
    (b = 0#8 → exec .loopStart s = .next { s with ms := .skipping 1, ip := s.ip + 1 })

/-- R181: LoopEnd pops and jumps to the popped value without advancing, whatever the cell holds, backward wherever the
invariant holds; on an empty stack it faults StackUnderflow and nothing changes. -/
def Obligations.LoopEndPopsAndJumpsOrFaults : Prop :=
  ∀ s : State, s.ms = .running →
    (∀ rest t, s.lrs = rest ++ [t] →
      exec .loopEnd s = .next { s with lrs := rest, ip := t } ∧ (s.Inv → t < s.ip)) ∧
    (s.lrs = [] → exec .loopEnd s = .fault .stackUnderflow ∧ (engineStep .loopEnd s).state = s)

/-- Where `dp` is out of range, which no reachable state is, the failing tape access comes first in Increment, Decrement,
Print and LoopStart, and after the InvalidChar check in Read (R210). The fault's kind is R53's decision (log entry 8). -/
def Obligations.TapeFaultComesInTheStatedOrder : Prop :=
  ∀ s : State, s.ms = .running → s.cap ≤ s.dp →
    exec .increment s = .fault (.ptrOutOfBounds s.dp) ∧ exec .decrement s = .fault (.ptrOutOfBounds s.dp) ∧
    exec .print s = .fault (.ptrOutOfBounds s.dp) ∧ exec .loopStart s = .fault (.ptrOutOfBounds s.dp) ∧
    (∀ b, s.nextAnswer = some b → exec .read s = .fault (.ptrOutOfBounds s.dp)) ∧
    (s.nextAnswer = none → exec .read s = .fault .invalidChar)

/-! ## Whole-machine rules -/

/-- A step that faults leaves the five pieces of engine state and the output log as they were; the one thing it can change
is the input position, by a Read in Running (R120). The Skipping with EOF case rests on D7 (log entry 11). -/
def Obligations.FaultChangesNoEngineState : Prop :=
  ∀ (i : Instr) (s : State) (f : Fault), (engineStep i s).result = .fault f →
    s.sameEngine (engineStep i s).state ∧ s.sameParams (engineStep i s).state ∧
    (engineStep i s).state.output = s.output ∧ (engineStep i s).outByte = none ∧
    (i = .read ∧ s.ms = .running → (engineStep i s).state.inputPos = s.inputPos + 1) ∧
    (¬ (i = .read ∧ s.ms = .running) → (engineStep i s).state = s)

/-- Which step raises which fault, exactly when, with which payload: complete, both ways (R200's table, R223). The payloads
of ValOutOfBounds and PtrOutOfBounds are decisions D22 and D23 (log entry 21); the bound 0x80 of UnprintableByte rests on D14
and general knowledge (log entry 9). -/
def Obligations.FaultsAreExactlyTheTable : Prop :=
  ∀ (i : Instr) (s : State) (f : Fault), s.Inv →
    ((engineStep i s).result = .fault f ↔
      (s.ms = .halted ∧ f = .haltedMachine) ∨
      (∃ d, s.ms = .skipping d ∧ i = .eof ∧ f = .mismatchedBrackets s.ip d) ∨
      (s.ms = .running ∧
        ((i = .moveRight ∧ s.dp = s.cap - 1 ∧ f = .ptrOutOfBounds (s.cap - 1)) ∨
         (i = .moveLeft ∧ s.dp = 0 ∧ f = .ptrOutOfBounds 0) ∨
         (i = .increment ∧ memRead s s.dp = .ok 255#8 ∧ f = .valOutOfBounds s.dp .plusOne) ∨
         (i = .decrement ∧ memRead s s.dp = .ok 0#8 ∧ f = .valOutOfBounds s.dp .minusOne) ∨
         (i = .read ∧ s.nextAnswer = none ∧ f = .invalidChar) ∨
         (i = .loopEnd ∧ s.lrs = [] ∧ f = .stackUnderflow) ∨
         (i = .print ∧ ∃ b, memRead s s.dp = .ok b ∧ 0x80 ≤ b.toNat ∧ f = .unprintableByte b))))

/-- R123 and R24: every successful step moves `ip` one on, but for LoopEnd in Running, which sets it to the popped value, and
EOF in Running, which leaves it (D8; log entry 10). -/
def Obligations.SuccessfulStepMovesIpByTheRule : Prop :=
  ∀ (i : Instr) (s t : State), exec i s = .next t →
    (s.ms = .running ∧ i = .loopEnd ∧ s.lrs = t.lrs ++ [t.ip]) ∨
    (s.ms = .running ∧ i = .eof ∧ t.ip = s.ip) ∨
    (¬ (s.ms = .running ∧ (i = .loopEnd ∨ i = .eof)) ∧ t.ip = s.ip + 1)

/-- The machine state is written only by the four steps of R30, to the values of its table; Halted is never left. That EOF in
Skipping leaves it as it is rests on decision D7 (log entry 11). In Skipping(0), which the machine has not, a `]` going to
Running is the model's choice (log entry 13). -/
def Obligations.MachineStateIsWrittenOnlyByFourSteps : Prop :=
  ∀ (i : Instr) (s : State),
    let m := (engineStep i s).state.ms
    m = s.ms ∨
    (s.ms = .running ∧ i = .loopStart ∧ memRead s s.dp = .ok 0#8 ∧ m = .skipping 1) ∨
    (∃ d, s.ms = .skipping d ∧ i = .loopStart ∧ m = .skipping (d + 1)) ∨
    (∃ d, s.ms = .skipping d ∧ i = .loopEnd ∧ m = if d - 1 = 0 then .running else .skipping (d - 1)) ∨
    (s.ms = .running ∧ i = .eof ∧ m = .halted)

/-- Only the moves write `dp`, by exactly one and inside the tape (R23); only Increment, Decrement and Read write a cell, the
one at `dp` (R22); all of them in Running only; and no step writes the run's parameters (R62). For EOF in Skipping, whose row
says only that it faults, this rests on decision D7 (log entry 11). -/
def Obligations.PointerAndCellsAreWrittenOnlyByTheirInstructions : Prop :=
  ∀ (i : Instr) (s : State),
    let t := (engineStep i s).state
    (t.dp = s.dp ∨
      (s.ms = .running ∧ i = .moveRight ∧ s.dp + 1 < s.cap ∧ t.dp = s.dp + 1) ∨
      (s.ms = .running ∧ i = .moveLeft ∧ s.dp = t.dp + 1)) ∧
    (∀ a, memRead t a = memRead s a ∨
      (s.ms = .running ∧ a = s.dp ∧ (i = .increment ∨ i = .decrement ∨ i = .read))) ∧
    s.sameParams t

/-- The stack grows only by LoopStart in Running on a nonzero cell, by the index of that `[`; it shrinks only by LoopEnd in
Running, by its top, to which `ip` goes (R26). For EOF in Skipping this rests on decision D7 (log entry 11). -/
def Obligations.StackIsWrittenOnlyByLoopInstructions : Prop :=
  ∀ (i : Instr) (s : State),
    let t := (engineStep i s).state
    (entersLoop i s = true → t.lrs = s.lrs ++ [s.ip]) ∧
    (leavesLoop i s = true → s.lrs = t.lrs ++ [t.ip]) ∧
    (entersLoop i s = false → leavesLoop i s = false → t.lrs = s.lrs)

/-- The collaborators are called only by Read and Print in Running, at most one call a step (R167, R169): the log grows by the
byte printed, the input position by the answer taken. That a byte is printed exactly when it is at most 0x7F rests on D14 and
general knowledge (log entry 9). -/
def Obligations.CollaboratorsAreCalledOnlyByReadAndPrint : Prop :=
  ∀ (i : Instr) (s : State),
    let o := engineStep i s
    (∀ r, o.answer = some r ↔ i = .read ∧ s.ms = .running ∧ r = s.nextAnswer) ∧
    (∀ b, o.outByte = some b ↔ i = .print ∧ s.ms = .running ∧ memRead s s.dp = .ok b ∧ b.toNat ≤ 0x7F) ∧
    o.state.output = s.output ++ o.outByte.toList ∧
    o.state.inputPos = s.inputPos + o.answer.toList.length ∧
    (o.answer = none ∨ o.outByte = none)

/-- R10: the engine's response is a function of its five pieces of state, its capacity, the symbol presented and, for Read
only, the answer of the input collaborator; nothing else of the environment reaches it. -/
def Obligations.ResponseDependsOnlyOnEngineSymbolAndAnswer : Prop :=
  ∀ (i : Instr) (s u : State), s.sameEngine u → u.cap = s.cap → (i = .read → u.nextAnswer = s.nextAnswer) →
    (engineStep i s).result = (engineStep i u).result ∧ (engineStep i s).outByte = (engineStep i u).outByte ∧
    (engineStep i s).answer = (engineStep i u).answer ∧ (engineStep i s).state.sameEngine (engineStep i u).state

/-- Halted is absorbing: no sequence of symbols changes anything of a halted machine. -/
def Obligations.HaltedIsNeverLeft : Prop :=
  ∀ (is : List Instr) (s : State), s.ms = .halted → feedAll is s = s

/-! ## Invariants -/

/-- The invariant holds right after reset. -/
def Obligations.ResetMeetsTheInvariant : Prop := State.reset.Inv

/-- Every step keeps the invariant, from every state that meets it. Its bound on the output log rests on D14 and general
knowledge (log entry 9). -/
def Obligations.EveryStepKeepsTheInvariant : Prop :=
  ∀ s t : State, s.Inv → step s = .next t → t.Inv

/-- Every symbol keeps the invariant, be it the one at `ip` or not, and also where the step faults; so every state that any
sequence of symbols reaches from a fresh machine meets it, in contract or not (R142, R27). The invariant's bound on the output
log rests on D14 and general knowledge (log entry 9); what a step after a fault does is decision D9, and that EOF in Skipping
changes nothing is D7 (log entry 11). -/
def Obligations.EverySymbolSequenceKeepsTheInvariant : Prop :=
  (∀ (i : Instr) (s : State), s.Inv → (engineStep i s).state.Inv) ∧
  (∀ (cap : Nat) (src : List CodePoint) (answers : List (Option Byte)) (is : List Instr), 1 ≤ cap →
    (feedAll is (State.fresh cap src answers)).Inv)

/-- The stack's length is the number of loops entered and not yet left (R27, with 90_conflicts.md C4's reading), and never
exceeds `ip`; no position is on it twice. That EOF in Skipping
changes nothing is decision D7, and the sequence goes on after a fault as decision D9 says (log entry 11). -/
def Obligations.StackLengthCountsTheOpenLoops : Prop :=
  ∀ (cap : Nat) (src : List CodePoint) (answers : List (Option Byte)) (is : List Instr), 1 ≤ cap →
    let s := State.fresh cap src answers
    (feedAll is s).lrs.length + loopsLeft is s = loopsEntered is s ∧
    (feedAll is s).lrs.length ≤ (feedAll is s).ip ∧ (feedAll is s).lrs.Nodup

/-! ## The driver and the run (40_dispatch.md R124 to R127) -/

/-- A cycle of a run that has not stopped is one `step` and the stop test after it (D24; log entry 2); a run that has stopped
stays as it is; and the cycle that ends a run with a fault changes nothing of the engine, which for EOF in Skipping rests on
decision D7 (log entry 11). -/
def Obligations.CycleIsAStepAndTheStopTest : Prop :=
  ∀ r : Run,
    (∀ x n, r.outcome = some x → r.cycles n = r) ∧
    (∀ t, r.outcome = none → step r.state = .next t →
      r.cycle.state = t ∧ r.cycle.outcome = if t.ms = .halted then some .succeeded else none) ∧
    (∀ f, r.outcome = none → step r.state = .fault f →
      r.cycle.outcome = some (.faulted f) ∧ r.state.sameEngine r.cycle.state)

/-- A run succeeds by EOF met in Running, and in no other way; the stack is not looked at (R125, R127). Where the driver's stop
test stands is decision D24 (log entry 2). -/
def Obligations.RunSucceedsExactlyByEofInRunning : Prop :=
  ∀ r : Run, r.outcome = none →
    (r.cycle.outcome = some .succeeded ↔ r.state.ms = .running ∧ r.state.src.length ≤ r.state.ip)

/-- In every run `ip` stays within the source, and EOF is presented exactly at its end (R126 a, b). After the halting step this
rests on decision D8, that EOF in Running leaves `ip` as it is (log entry 10), and after a MismatchedBrackets fault on decision
D7, that EOF in Skipping does too (log entry 11). -/
def Obligations.RunKeepsIpWithinTheSource : Prop :=
  ∀ (cap : Nat) (src : List CodePoint) (answers : List (Option Byte)) (n : Nat), 1 ≤ cap →
    let s := ((Run.start cap src answers).cycles n).state
    s.ip ≤ src.length ∧ (decode s.fetchWord = .eof ↔ s.ip = src.length)

/-- What a run's fault tells of the run: HaltedMachine is never raised, MismatchedBrackets carries the length of the source
and a depth of at least one, and every other payload agrees with the machine's state (R126 c, d; R201 to R207). That `ms` is
still Skipping after MismatchedBrackets rests on decision D7 (log entry 11); the payloads of ValOutOfBounds and PtrOutOfBounds
are decisions D22 and D23 (log entry 21); the bound 0x80 rests on D14 and general knowledge (log entry 9). -/
def Obligations.RunFaultsCarryTheStatedPayloads : Prop :=
  ∀ (cap : Nat) (src : List CodePoint) (answers : List (Option Byte)) (n : Nat) (f : Fault), 1 ≤ cap →
    let r := (Run.start cap src answers).cycles n
    r.outcome = some (.faulted f) →
      match f with
      | .ptrOutOfBounds p => p = r.state.dp ∧ (p = 0 ∨ p = cap - 1)
      | .valOutOfBounds a .plusOne => a = r.state.dp ∧ memRead r.state a = .ok 255#8
      | .valOutOfBounds a .minusOne => a = r.state.dp ∧ memRead r.state a = .ok 0#8
      | .invalidChar => ∃ k, r.state.inputPos = k + 1 ∧ inputAnswer answers k = none
      | .stackUnderflow => r.state.lrs = []
      | .haltedMachine => False
      | .mismatchedBrackets p d => p = src.length ∧ 1 ≤ d ∧ r.state.ms = .skipping d
      | .unprintableByte b => 0x80 ≤ b.toNat ∧ memRead r.state r.state.dp = .ok b

/-- In every run the stack holds positions of `[` characters, no more of them than the source has before `ip`, and the skip
depth is at most the number of `[` in the source (R126 e). After a MismatchedBrackets fault this rests on decision D7 (log entry
11), and for `ip` after the halting step on D8 (log entry 10). -/
def Obligations.RunStackHoldsLoopStartPositions : Prop :=
  ∀ (cap : Nat) (src : List CodePoint) (answers : List (Option Byte)) (n : Nat), 1 ≤ cap →
    let s := ((Run.start cap src answers).cycles n).state
    (∀ e ∈ s.lrs, (fetchAt src e).map ofCodePoint = some .loopStart) ∧
    s.lrs.length ≤ countBetween src .loopStart 0 s.ip ∧
    (∀ d, s.ms = .skipping d → d ≤ countBetween src .loopStart 0 src.length)

/-- In every run, of any source, the index a LoopEnd jumps back to is the index of the `[` that textually matches that `]`:
the jump by the stack and the match by counting agree (R184, which says it of balanced sources). -/
def Obligations.LoopEndJumpsToItsTextualMatch : Prop :=
  ∀ (cap : Nat) (src : List CodePoint) (answers : List (Option Byte)) (n p : Nat), 1 ≤ cap →
    let r := (Run.start cap src answers).cycles n
    r.outcome = none → r.state.ms = .running →
    (fetchAt src r.state.ip).map ofCodePoint = some .loopEnd → r.state.lrs.getLast? = some p →
      matchingBracket src p r.state.ip ∧ step r.state = .next { r.state with lrs := r.state.lrs.dropLast, ip := p }

/-- A `[` on a zero cell is left at the character after its textual match, one step for it and one for every symbol up to and
including the match, with nothing but `ip` changed (R182, R183, R255). -/
def Obligations.SkippingStopsAfterTheTextualMatch : Prop :=
  ∀ (s : State) (q : Nat), s.ms = .running → memRead s s.cellAddress = .ok 0#8 → matchingBracket s.src s.ip q →
    steps (q - s.ip + 1) s = .next { s with ip := q + 1 }

/-- A `[` on a zero cell that has no textual match ends in MismatchedBrackets at the end of the source, carrying the depth
reached there (R115, R183, R185 b). -/
def Obligations.UnmatchedSkippedLoopFaultsAtTheEnd : Prop :=
  ∀ s : State, s.ms = .running → memRead s s.cellAddress = .ok 0#8 →
    (fetchAt s.src s.ip).map ofCodePoint = some .loopStart → (∀ q, ¬ matchingBracket s.src s.ip q) →
    steps (s.src.length - s.ip + 1) s =
      .fault (.mismatchedBrackets s.src.length (bracketDepth s.src s.ip s.src.length).toNat)

/-! ## The collaborators (43_io.md) -/

/-- With answers in the collaborator's contract, a byte just read can be printed back without a fault (R164; D15). That
printable means at most 0x7F rests on D14 and general knowledge (log entry 9). -/
def Obligations.ByteReadInContractPrintsBack : Prop :=
  ∀ s t : State, s.tape.wf → s.ms = .running → inputInContract s.answers → s.inputPos < s.answers.length →
    exec .read s = .next t → ∃ b, s.nextAnswer = some b ∧ exec .print t = .next { t with output := t.output ++ [b], ip := t.ip + 1 }

/-- The reference collaborators (R162, R166): a line gives its first character where that is at most 0x7F and else no answer,
the rest of the line being discarded; so its answers are in contract; and the output collaborator accepts every byte the
engine hands it, with the engine's own effect on the log. The bound 0x7F rests on D14 and general knowledge (log entry 9); the
line's terminator is left open (D16; log entry 18). -/
def Obligations.ReferenceCollaboratorsMeetTheirContracts : Prop :=
  (∀ (c : CodePoint) (rest : List CodePoint),
    (c.toNat ≤ 0x7F → ∃ b, lineAnswer (c :: rest) = some b ∧ b.toNat = c.toNat) ∧
    (0x7F < c.toNat → lineAnswer (c :: rest) = none)) ∧
  lineAnswer [] = none ∧
  (∀ lines : List (List CodePoint), inputInContract (referenceAnswers lines)) ∧
  (∀ (s : State) (b : Byte), (engineStep .print s).outByte = some b →
    ∃ c : CodePoint, c.toNat = b.toNat ∧ printChar b s.output = some ((engineStep .print s).state.output, [c]))

/-- The numbers for a binary dump are the spec's, and they tell symbols (but for the character of Other), machine states,
fault kinds and results apart (R93, R30, R208). They are the spec's own numbering, decisions D5, D6 and D27 (log entry 22).
Which value of the `Ok`/`Fault` flag means Fault is the model's choice (log entry 28) and is not stated here. -/
def Obligations.BinaryCodesTellThingsApart : Prop :=
  (symbolTag .moveRight = 0 ∧ symbolTag .moveLeft = 1 ∧ symbolTag .increment = 2 ∧ symbolTag .decrement = 3 ∧
    symbolTag .print = 4 ∧ symbolTag .read = 5 ∧ symbolTag .loopStart = 6 ∧ symbolTag .loopEnd = 7 ∧ symbolTag .eof = 8 ∧
    ∀ c, symbolTag (.other c) = 9) ∧
  (machineStateCode .running = (0, none) ∧ (∀ d, machineStateCode (.skipping d) = (1, some d)) ∧
    machineStateCode .halted = (2, none)) ∧
  ((∀ p, faultCode (.ptrOutOfBounds p) = 0) ∧ (∀ a d, faultCode (.valOutOfBounds a d) = 1) ∧ faultCode .invalidChar = 2 ∧
    faultCode .stackUnderflow = 3 ∧ faultCode .haltedMachine = 4 ∧ (∀ p d, faultCode (.mismatchedBrackets p d) = 5) ∧
    ∀ b, faultCode (.unprintableByte b) = 6) ∧
  (∀ i j : Instr, symbolTag i = symbolTag j → i = j ∨ ∃ c d, i = .other c ∧ j = .other d) ∧
  (∀ i : Instr, (symbolTag i).toNat ≤ 9) ∧
  (∀ m n : MState, machineStateCode m = machineStateCode n → m = n) ∧
  (∀ m : MState, (machineStateCode m).1.toNat ≤ 2) ∧
  (∀ f : Fault, faultCode f ≤ 6) ∧
  (∀ f g : Fault, faultCode f = faultCode g ↔ f.SameKind g) ∧
  (∀ f : Fault, (resultCode (.fault f)).1 ≠ (resultCode .ok).1 ∧ (resultCode (.fault f)).2 = some (faultCode f))
end

