-- ==== Sys2Proof/Laws/Decode.lean ====
section
/-! SUPPORT. What the parts of the decoder and the encoder do: the fetch word and its optional character, a character and
its symbol. -/

namespace Sys2Proof

/-- The fetch word of an optional character holds that character. -/
@[simp] theorem presentChar_packFetch (o : Option CodePoint) : presentChar (packFetch o) = o := by
  cases o with
  | none => rfl
  | some c =>
    have hv : (0x200000#22 ||| c.setWidth 22).getLsbD 21 = true := by simp
    have hc : (0x200000#22 ||| c.setWidth 22).setWidth 21 = c := by
      have h0 : BitVec.setWidth 21 0x200000#22 = 0#21 := by decide
      rw [BitVec.setWidth_or, h0, BitVec.setWidth_setWidth_of_le _ (by omega)]
      simp
    simp only [presentChar, packFetch, hv, hc, if_true]

/-- A fetch word with a character present is the fetch word of that character. -/
theorem packFetch_presentChar (w : FetchWord) (h : w.getLsbD 21 = true) : packFetch (presentChar w) = w := by
  simp only [presentChar, h, if_true, packFetch]
  ext i hi
  rcases Nat.lt_or_eq_of_le (Nat.lt_succ_iff.1 hi) with hlt | rfl
  · have hz : (0x200000#22)[i] = false := by
      have : ∀ j : Fin 21, (0x200000#22).getLsbD j = false := by decide
      exact this ⟨i, hlt⟩
    simp [hz, BitVec.getLsbD_eq_getElem, hi, hlt]
  · simpa using h.symm

theorem presentChar_of_absent (w : FetchWord) (h : w.getLsbD 21 = false) : presentChar w = none := by
  simp only [presentChar, h]; rfl

/-- The symbol of a character is written with that character: no two characters have one symbol. -/
@[simp] theorem charOf_ofCodePoint (c : CodePoint) : charOf (ofCodePoint c) = some c := by
  unfold ofCodePoint
  repeat' split
  all_goals simp_all [charOf]

/-- A character gives a well-formed symbol. -/
theorem ofCodePoint_wellFormed (c : CodePoint) : (ofCodePoint c).wellFormed = true := by
  unfold ofCodePoint
  repeat' split
  all_goals simp_all [Instr.wellFormed, instructionCodePoints]

/-- A character that is none of the eight gives Other, carrying it. -/
theorem ofCodePoint_of_not_instruction {c : CodePoint} (h : c ∉ instructionCodePoints) : ofCodePoint c = .other c := by
  simp only [instructionCodePoints, List.mem_cons, List.not_mem_nil, or_false, not_or] at h
  simp [ofCodePoint, h]

end Sys2Proof
end

