-- ==== Sys2Proof/Laws/Flags.lean ====
section
/-! SUPPORT. The tests on data: when Delta Arithmetic fails, and what it gives where it does not. -/

namespace Sys2Proof.Machine

/-- Delta Arithmetic with +1: the byte one up, and no result at 255. -/
theorem applyDelta_plusOne (b : Byte) : applyDelta b .plusOne = if b.toNat = 255 then .error .plusOne else .ok (b + 1#8) := by
  revert b; decide

/-- Delta Arithmetic with -1: the byte one down, and no result at 0. -/
theorem applyDelta_minusOne (b : Byte) : applyDelta b .minusOne = if b.toNat = 0 then .error .minusOne else .ok (b - 1#8) := by
  revert b; decide

theorem cellNonzero_eq_true_iff (b : Byte) : cellNonzero b = true ↔ b ≠ 0#8 := by simp [cellNonzero]

theorem printable_eq_true_iff (b : Byte) : printable b = true ↔ b.toNat ≤ 0x7F := by simp [printable]

end Sys2Proof.Machine
end

