-- ==== Sys2Proof/Laws/Memory.lean ====
section
/-! SUPPORT. The tape as data: a read after a write, the canonical form kept, equal reads are equal tapes. -/

namespace Sys2Proof.Machine

@[simp] theorem Memory.read_nil (a : Nat) : Memory.read [] a = 0#8 := rfl

theorem Memory.read_cons (x : Host.Cell) (m : Memory) (a : Nat) :
    Memory.read (x :: m) a = if x.1 = a then x.2 else Memory.read m a := rfl

/-- A cell that no entry lists holds 0. -/
theorem Memory.read_of_not_listed (m : Memory) (a : Nat) (h : ∀ c ∈ m, c.1 ≠ a) : m.read a = 0#8 := by
  induction m with
  | nil => rfl
  | cons x m ih =>
    rw [Memory.read_cons, if_neg (h x (by simp))]
    exact ih fun c hc => h c (by simp [hc])

theorem Memory.read_consEntry_same (a : Nat) (v : Byte) (m : Memory) (h : ∀ c ∈ m, a < c.1) :
    (Memory.cons a v m).read a = v := by
  unfold Memory.cons
  split
  · next hv => rw [Memory.read_of_not_listed m a fun c hc => by have := h c hc; omega, hv]; rfl
  · simp [Memory.read_cons]

theorem Memory.read_consEntry_ne (a b : Nat) (v : Byte) (m : Memory) (h : b ≠ a) :
    (Memory.cons a v m).read b = m.read b := by
  unfold Memory.cons
  split
  · rfl
  · rw [Memory.read_cons, if_neg (Ne.symm h)]

/-- A read of the cell just written gives the byte written. -/
theorem Memory.read_write_same (m : Memory) (a : Nat) (v : Byte) (h : m.wf) : (m.write a v).read a = v := by
  obtain ⟨hp, -⟩ := h
  induction m with
  | nil => exact Memory.read_consEntry_same a v [] (by simp)
  | cons x m ih =>
    obtain ⟨hx, hm⟩ := List.pairwise_cons.1 hp
    unfold Memory.write
    split
    · next hlt => rw [Memory.read_cons, if_neg (by simpa using Nat.ne_of_lt hlt)]; exact ih hm
    · split
      · next heq => exact Memory.read_consEntry_same a v m fun c hc => by have := hx c hc; omega
      · next h1 h2 =>
        refine Memory.read_consEntry_same a v _ fun c hc => ?_
        rcases List.mem_cons.1 hc with rfl | hc
        · omega
        · have := hx c hc; omega

/-- A write leaves every other cell alone, whatever the form of the tape. -/
theorem Memory.read_write_ne (m : Memory) (a b : Nat) (v : Byte) (h : b ≠ a) : (m.write a v).read b = m.read b := by
  induction m with
  | nil => exact Memory.read_consEntry_ne a b v [] h
  | cons x m ih =>
    unfold Memory.write
    split
    · rw [Memory.read_cons, Memory.read_cons, ih]
    · split
      · next heq => rw [Memory.read_consEntry_ne a b v m h, Memory.read_cons, if_neg (by omega)]
      · exact Memory.read_consEntry_ne a b v _ h

theorem Memory.mem_consEntry {a : Nat} {v : Byte} {m : Memory} {c : Host.Cell} (h : c ∈ Memory.cons a v m) :
    (c = (a, v) ∧ v ≠ 0#8) ∨ c ∈ m := by
  unfold Memory.cons at h
  split at h
  · exact .inr h
  · next hv =>
    rcases List.mem_cons.1 h with rfl | h
    · exact .inl ⟨rfl, hv⟩
    · exact .inr h

/-- Every entry after a write is the one written or was there before. -/
theorem Memory.mem_write {m : Memory} {a : Nat} {v : Byte} {c : Host.Cell} (h : c ∈ m.write a v) :
    (c = (a, v) ∧ v ≠ 0#8) ∨ c ∈ m := by
  induction m with
  | nil => exact Memory.mem_consEntry h
  | cons x m ih =>
    unfold Memory.write at h
    split at h
    · rcases List.mem_cons.1 h with rfl | h
      · exact .inr (by simp)
      · exact (ih h).imp_right fun h => by simp [h]
    · split at h
      · exact (Memory.mem_consEntry h).imp_right fun h => by simp [h]
      · exact Memory.mem_consEntry h

theorem Memory.wf_nil : Memory.wf [] := by simp [Memory.wf]

theorem Memory.consEntry_rising (a : Nat) (v : Byte) (m : Memory) (hm : m.Pairwise fun x y => x.1 < y.1)
    (h : ∀ c ∈ m, a < c.1) : (Memory.cons a v m).Pairwise fun x y => x.1 < y.1 := by
  unfold Memory.cons
  split
  · exact hm
  · exact List.pairwise_cons.2 ⟨h, hm⟩

/-- A write keeps the canonical form. -/
theorem Memory.write_wf (m : Memory) (a : Nat) (v : Byte) (h : m.wf) : (m.write a v).wf := by
  obtain ⟨hp, hz⟩ := h
  refine ⟨?_, fun c hc => ?_⟩
  · induction m with
    | nil => exact Memory.consEntry_rising a v [] .nil (by simp)
    | cons x m ih =>
      obtain ⟨hx, hm⟩ := List.pairwise_cons.1 hp
      unfold Memory.write
      split
      · next hlt =>
        refine List.pairwise_cons.2 ⟨fun c hc => ?_, ih hm fun c hc => hz c (by simp [hc])⟩
        rcases Memory.mem_write hc with ⟨rfl, -⟩ | hc
        · exact hlt
        · exact hx c hc
      · split
        · next heq => exact Memory.consEntry_rising a v m hm fun c hc => by have := hx c hc; omega
        · refine Memory.consEntry_rising a v _ hp fun c hc => ?_
          rcases List.mem_cons.1 hc with rfl | hc
          · omega
          · have := hx c hc; omega
  · rcases Memory.mem_write hc with ⟨rfl, hv⟩ | hc
    · exact hv
    · exact hz c hc

/-- Canonical tapes that read alike are equal: the form holds nothing but the cells. -/
theorem Memory.ext_of_read (m n : Memory) (hm : m.wf) (hn : n.wf) (h : ∀ a, m.read a = n.read a) : m = n := by
  induction m generalizing n with
  | nil =>
    cases n with
    | nil => rfl
    | cons y n =>
      have := h y.1
      rw [Memory.read_cons, if_pos rfl] at this
      exact absurd this.symm (hn.2 y (by simp))
  | cons x m ih =>
    obtain ⟨hx, hpm⟩ := List.pairwise_cons.1 hm.1
    have head_read : ∀ (y : Host.Cell) (k : Memory), (∀ c ∈ k, y.1 < c.1) → ∀ a, a < y.1 → Memory.read (y :: k) a = 0#8 :=
      fun y k hk a ha => Memory.read_of_not_listed _ a fun c hc => by
        rcases List.mem_cons.1 hc with rfl | hc
        · omega
        · have := hk c hc; omega
    cases n with
    | nil =>
      have := h x.1
      rw [Memory.read_cons, if_pos rfl] at this
      exact absurd this (hm.2 x (by simp))
    | cons y n =>
      obtain ⟨hy, hpn⟩ := List.pairwise_cons.1 hn.1
      have hxy : x.1 = y.1 := by
        rcases Nat.lt_trichotomy x.1 y.1 with hlt | heq | hgt
        · have := h x.1
          rw [head_read y n hy x.1 hlt, Memory.read_cons, if_pos rfl] at this
          exact absurd this (hm.2 x (by simp))
        · exact heq
        · have := h y.1
          rw [head_read x m hx y.1 hgt, Memory.read_cons, if_pos rfl] at this
          exact absurd this.symm (hn.2 y (by simp))
      have hval : x.2 = y.2 := by
        have := h x.1
        rwa [Memory.read_cons, if_pos rfl, Memory.read_cons, if_pos hxy.symm] at this
      obtain rfl : x = y := Prod.ext hxy hval
      congr 1
      refine ih n ⟨hpm, fun c hc => hm.2 c (by simp [hc])⟩ ⟨hpn, fun c hc => hn.2 c (by simp [hc])⟩ fun a => ?_
      by_cases ha : x.1 = a
      · rw [Memory.read_of_not_listed m a fun c hc => by have := hx c hc; omega,
          Memory.read_of_not_listed n a fun c hc => by have := hy c hc; omega]
      · have := h a
        rwa [Memory.read_cons, if_neg ha, Memory.read_cons, if_neg ha] at this

end Sys2Proof.Machine
end

