-- ==== Sys2Proof/Laws/State.lean ====
section
/-! SUPPORT. One lemma per field per update of State, so that no proof unfolds a record update. -/

namespace Sys2Proof.Machine

variable (s : State)

/-! ### setDp -/

@[simp] theorem State.setDp_tape (v : Nat) : (s.setDp v).tape = s.tape := rfl
@[simp] theorem State.setDp_dp (v : Nat) : (s.setDp v).dp = v := rfl
@[simp] theorem State.setDp_ip (v : Nat) : (s.setDp v).ip = s.ip := rfl
@[simp] theorem State.setDp_lrs (v : Nat) : (s.setDp v).lrs = s.lrs := rfl
@[simp] theorem State.setDp_ms (v : Nat) : (s.setDp v).ms = s.ms := rfl
@[simp] theorem State.setDp_inputPos (v : Nat) : (s.setDp v).inputPos = s.inputPos := rfl
@[simp] theorem State.setDp_output (v : Nat) : (s.setDp v).output = s.output := rfl
@[simp] theorem State.setDp_cap (v : Nat) : (s.setDp v).cap = s.cap := rfl
@[simp] theorem State.setDp_src (v : Nat) : (s.setDp v).src = s.src := rfl
@[simp] theorem State.setDp_answers (v : Nat) : (s.setDp v).answers = s.answers := rfl

/-! ### setIp -/

@[simp] theorem State.setIp_tape (v : Nat) : (s.setIp v).tape = s.tape := rfl
@[simp] theorem State.setIp_dp (v : Nat) : (s.setIp v).dp = s.dp := rfl
@[simp] theorem State.setIp_ip (v : Nat) : (s.setIp v).ip = v := rfl
@[simp] theorem State.setIp_lrs (v : Nat) : (s.setIp v).lrs = s.lrs := rfl
@[simp] theorem State.setIp_ms (v : Nat) : (s.setIp v).ms = s.ms := rfl
@[simp] theorem State.setIp_inputPos (v : Nat) : (s.setIp v).inputPos = s.inputPos := rfl
@[simp] theorem State.setIp_output (v : Nat) : (s.setIp v).output = s.output := rfl
@[simp] theorem State.setIp_cap (v : Nat) : (s.setIp v).cap = s.cap := rfl
@[simp] theorem State.setIp_src (v : Nat) : (s.setIp v).src = s.src := rfl
@[simp] theorem State.setIp_answers (v : Nat) : (s.setIp v).answers = s.answers := rfl

/-! ### setMs -/

@[simp] theorem State.setMs_tape (v : MState) : (s.setMs v).tape = s.tape := rfl
@[simp] theorem State.setMs_dp (v : MState) : (s.setMs v).dp = s.dp := rfl
@[simp] theorem State.setMs_ip (v : MState) : (s.setMs v).ip = s.ip := rfl
@[simp] theorem State.setMs_lrs (v : MState) : (s.setMs v).lrs = s.lrs := rfl
@[simp] theorem State.setMs_ms (v : MState) : (s.setMs v).ms = v := rfl
@[simp] theorem State.setMs_inputPos (v : MState) : (s.setMs v).inputPos = s.inputPos := rfl
@[simp] theorem State.setMs_output (v : MState) : (s.setMs v).output = s.output := rfl
@[simp] theorem State.setMs_cap (v : MState) : (s.setMs v).cap = s.cap := rfl
@[simp] theorem State.setMs_src (v : MState) : (s.setMs v).src = s.src := rfl
@[simp] theorem State.setMs_answers (v : MState) : (s.setMs v).answers = s.answers := rfl

/-! ### setTape -/

@[simp] theorem State.setTape_tape (m : Memory) : (s.setTape m).tape = m := rfl
@[simp] theorem State.setTape_dp (m : Memory) : (s.setTape m).dp = s.dp := rfl
@[simp] theorem State.setTape_ip (m : Memory) : (s.setTape m).ip = s.ip := rfl
@[simp] theorem State.setTape_lrs (m : Memory) : (s.setTape m).lrs = s.lrs := rfl
@[simp] theorem State.setTape_ms (m : Memory) : (s.setTape m).ms = s.ms := rfl
@[simp] theorem State.setTape_inputPos (m : Memory) : (s.setTape m).inputPos = s.inputPos := rfl
@[simp] theorem State.setTape_output (m : Memory) : (s.setTape m).output = s.output := rfl
@[simp] theorem State.setTape_cap (m : Memory) : (s.setTape m).cap = s.cap := rfl
@[simp] theorem State.setTape_src (m : Memory) : (s.setTape m).src = s.src := rfl
@[simp] theorem State.setTape_answers (m : Memory) : (s.setTape m).answers = s.answers := rfl

/-! ### push -/

@[simp] theorem State.push_tape (v : Nat) : (s.push v).tape = s.tape := rfl
@[simp] theorem State.push_dp (v : Nat) : (s.push v).dp = s.dp := rfl
@[simp] theorem State.push_ip (v : Nat) : (s.push v).ip = s.ip := rfl
@[simp] theorem State.push_lrs (v : Nat) : (s.push v).lrs = s.lrs ++ [v] := rfl
@[simp] theorem State.push_ms (v : Nat) : (s.push v).ms = s.ms := rfl
@[simp] theorem State.push_inputPos (v : Nat) : (s.push v).inputPos = s.inputPos := rfl
@[simp] theorem State.push_output (v : Nat) : (s.push v).output = s.output := rfl
@[simp] theorem State.push_cap (v : Nat) : (s.push v).cap = s.cap := rfl
@[simp] theorem State.push_src (v : Nat) : (s.push v).src = s.src := rfl
@[simp] theorem State.push_answers (v : Nat) : (s.push v).answers = s.answers := rfl

/-! ### consumeAnswer -/

@[simp] theorem State.consumeAnswer_tape : s.consumeAnswer.tape = s.tape := rfl
@[simp] theorem State.consumeAnswer_dp : s.consumeAnswer.dp = s.dp := rfl
@[simp] theorem State.consumeAnswer_ip : s.consumeAnswer.ip = s.ip := rfl
@[simp] theorem State.consumeAnswer_lrs : s.consumeAnswer.lrs = s.lrs := rfl
@[simp] theorem State.consumeAnswer_ms : s.consumeAnswer.ms = s.ms := rfl
@[simp] theorem State.consumeAnswer_inputPos : s.consumeAnswer.inputPos = s.inputPos + 1 := rfl
@[simp] theorem State.consumeAnswer_output : s.consumeAnswer.output = s.output := rfl
@[simp] theorem State.consumeAnswer_cap : s.consumeAnswer.cap = s.cap := rfl
@[simp] theorem State.consumeAnswer_src : s.consumeAnswer.src = s.src := rfl
@[simp] theorem State.consumeAnswer_answers : s.consumeAnswer.answers = s.answers := rfl

/-! ### emit -/

@[simp] theorem State.emit_tape (b : Byte) : (s.emit b).tape = s.tape := rfl
@[simp] theorem State.emit_dp (b : Byte) : (s.emit b).dp = s.dp := rfl
@[simp] theorem State.emit_ip (b : Byte) : (s.emit b).ip = s.ip := rfl
@[simp] theorem State.emit_lrs (b : Byte) : (s.emit b).lrs = s.lrs := rfl
@[simp] theorem State.emit_ms (b : Byte) : (s.emit b).ms = s.ms := rfl
@[simp] theorem State.emit_inputPos (b : Byte) : (s.emit b).inputPos = s.inputPos := rfl
@[simp] theorem State.emit_output (b : Byte) : (s.emit b).output = s.output ++ [b] := rfl
@[simp] theorem State.emit_cap (b : Byte) : (s.emit b).cap = s.cap := rfl
@[simp] theorem State.emit_src (b : Byte) : (s.emit b).src = s.src := rfl
@[simp] theorem State.emit_answers (b : Byte) : (s.emit b).answers = s.answers := rfl

/-! ### advance -/

@[simp] theorem State.advance_tape : s.advance.tape = s.tape := rfl
@[simp] theorem State.advance_dp : s.advance.dp = s.dp := rfl
@[simp] theorem State.advance_ip : s.advance.ip = s.ip + 1 := rfl
@[simp] theorem State.advance_lrs : s.advance.lrs = s.lrs := rfl
@[simp] theorem State.advance_ms : s.advance.ms = s.ms := rfl
@[simp] theorem State.advance_inputPos : s.advance.inputPos = s.inputPos := rfl
@[simp] theorem State.advance_output : s.advance.output = s.output := rfl
@[simp] theorem State.advance_cap : s.advance.cap = s.cap := rfl
@[simp] theorem State.advance_src : s.advance.src = s.src := rfl
@[simp] theorem State.advance_answers : s.advance.answers = s.answers := rfl

/-! ### fresh and reset -/

@[simp] theorem State.fresh_tape (cap : Nat) (src : List CodePoint) (answers : List (Option Byte)) :
    (State.fresh cap src answers).tape = [] := rfl
@[simp] theorem State.fresh_dp (cap : Nat) (src : List CodePoint) (answers : List (Option Byte)) :
    (State.fresh cap src answers).dp = 0 := rfl
@[simp] theorem State.fresh_ip (cap : Nat) (src : List CodePoint) (answers : List (Option Byte)) :
    (State.fresh cap src answers).ip = 0 := rfl
@[simp] theorem State.fresh_lrs (cap : Nat) (src : List CodePoint) (answers : List (Option Byte)) :
    (State.fresh cap src answers).lrs = [] := rfl
@[simp] theorem State.fresh_ms (cap : Nat) (src : List CodePoint) (answers : List (Option Byte)) :
    (State.fresh cap src answers).ms = .running := rfl
@[simp] theorem State.fresh_inputPos (cap : Nat) (src : List CodePoint) (answers : List (Option Byte)) :
    (State.fresh cap src answers).inputPos = 0 := rfl
@[simp] theorem State.fresh_output (cap : Nat) (src : List CodePoint) (answers : List (Option Byte)) :
    (State.fresh cap src answers).output = [] := rfl
@[simp] theorem State.fresh_cap (cap : Nat) (src : List CodePoint) (answers : List (Option Byte)) :
    (State.fresh cap src answers).cap = cap := rfl
@[simp] theorem State.fresh_src (cap : Nat) (src : List CodePoint) (answers : List (Option Byte)) :
    (State.fresh cap src answers).src = src := rfl
@[simp] theorem State.fresh_answers (cap : Nat) (src : List CodePoint) (answers : List (Option Byte)) :
    (State.fresh cap src answers).answers = answers := rfl

@[simp] theorem State.ipOut_eq : s.ipOut = s.ip := rfl
@[simp] theorem State.msOut_eq : s.msOut = s.ms := rfl

end Sys2Proof.Machine
end

