-- ==== Sys2Proof/Laws/Ops.lean ====
section
/-! SUPPORT. For each shared operation, once, everything it can do. -/

namespace Sys2Proof.Machine

variable {s t : State} {a : Nat} {v b : Byte} {f : Fault}

@[simp] theorem State.cellAddress_eq (s : State) : s.cellAddress = s.dp := rfl

theorem memRead_eq_ok_iff : memRead s a = .ok b ↔ a < s.cap ∧ b = s.tape.read a := by
  unfold memRead; split <;> simp [*, eq_comm]

theorem memRead_eq_error_iff : memRead s a = .error f ↔ s.cap ≤ a ∧ f = .ptrOutOfBounds a := by
  unfold memRead; split <;> simp [eq_comm] <;> omega

theorem memWrite_eq_ok_iff : memWrite s a v = .ok t ↔ a < s.cap ∧ t = s.setTape (s.tape.write a v) := by
  unfold memWrite; split <;> simp [*, eq_comm]

theorem memWrite_eq_error_iff : memWrite s a v = .error f ↔ s.cap ≤ a ∧ f = .ptrOutOfBounds a := by
  unfold memWrite; split <;> simp [eq_comm] <;> omega

/-- The cell operand: its byte where `dp` is in range, and a tape fault at `dp` where it is not. -/
theorem withCell_eq (s : State) (k : Byte → StepOut) :
    withCell s k = if s.dp < s.cap then k (s.tape.read s.dp) else raise (.ptrOutOfBounds s.dp) s := by
  unfold withCell memRead State.cellAddress; split <;> split <;> simp_all

/-- The cell operand's write: that one cell and `ip` where `dp` is in range, and a tape fault at `dp` where it is not. -/
theorem storeCell_eq (s : State) (v : Byte) :
    storeCell s v =
      if s.dp < s.cap then succeed (s.setTape (s.tape.write s.dp v)).advance else raise (.ptrOutOfBounds s.dp) s := by
  unfold storeCell memWrite State.cellAddress; split <;> split <;> simp_all

@[simp] theorem pop_push (s : State) (v : Nat) : (s.push v).pop = some (v, s) := by
  simp [State.pop, State.push]

theorem pop_eq_none_iff : s.pop = none ↔ s.lrs = [] := by
  unfold State.pop
  split
  · next h => simpa using h
  · next t h => exact ⟨nofun, fun he => by simp [he] at h⟩

/-- What a pop gives: the last entry, and the state with the entries before it. -/
theorem pop_eq_some_iff {v : Nat} : s.pop = some (v, t) ↔ ∃ l, s.lrs = l ++ [v] ∧ t = { s with lrs := l } := by
  unfold State.pop
  split
  · next h => simp_all
  · next x h =>
    obtain ⟨l, hl⟩ := List.getLast?_eq_some_iff.1 h
    constructor
    · intro he
      simp only [Option.some.injEq, Prod.mk.injEq] at he
      exact ⟨l, by rw [hl, he.1], by rw [← he.2, hl]; simp⟩
    · rintro ⟨l', hl', rfl⟩
      rw [hl] at hl'
      obtain ⟨rfl, hx⟩ := List.append_inj' hl' rfl
      simp_all

theorem dispatchOn_halted (h : s.ms = .halted) (k : Nat → StepOut) (o : StepOut) :
    dispatchOn s k o = raise .haltedMachine s := by simp [dispatchOn, h]

theorem dispatchOn_skipping {d : Nat} (h : s.ms = .skipping d) (k : Nat → StepOut) (o : StepOut) :
    dispatchOn s k o = k d := by simp [dispatchOn, h]

theorem dispatchOn_running (h : s.ms = .running) (k : Nat → StepOut) (o : StepOut) :
    dispatchOn s k o = o := by simp [dispatchOn, h]

@[simp] theorem succeed_state (s : State) : (succeed s).state = s := rfl

@[simp] theorem succeed_result (s : State) : (succeed s).result = .ok := rfl

@[simp] theorem succeed_answer (s : State) : (succeed s).answer = none := rfl

@[simp] theorem succeed_outByte (s : State) : (succeed s).outByte = none := rfl

@[simp] theorem raise_state (f : Fault) (s : State) : (raise f s).state = s := rfl

@[simp] theorem raise_result (f : Fault) (s : State) : (raise f s).result = .fault f := rfl

@[simp] theorem raise_answer (f : Fault) (s : State) : (raise f s).answer = none := rfl

@[simp] theorem raise_outByte (f : Fault) (s : State) : (raise f s).outByte = none := rfl

@[simp] theorem outcomeOf_succeed (s : State) : outcomeOf (succeed s) = .next s := rfl

@[simp] theorem outcomeOf_raise (f : Fault) (s : State) : outcomeOf (raise f s) = .fault f := rfl

/-- A step seen through the host's interface goes on exactly when its result is Ok. -/
theorem outcomeOf_eq_next_iff {o : StepOut} : outcomeOf o = .next t ↔ o.result = .ok ∧ o.state = t := by
  unfold outcomeOf; split <;> simp [*]

theorem outcomeOf_eq_fault_iff {o : StepOut} : outcomeOf o = .fault f ↔ o.result = .fault f := by
  unfold outcomeOf; split <;> simp [*]

theorem outcomeOf_ne_refused {o : StepOut} {r : Refusal} : outcomeOf o ≠ .refused r := by
  unfold outcomeOf; split <;> simp

/-- Scripted answers are given as they stand. -/
theorem inputAnswer_of_lt (script : List (Option Byte)) (k : Nat) (h : k < script.length) :
    inputAnswer script k = script[k] := by simp [inputAnswer, List.getElem?_eq_getElem h]

end Sys2Proof.Machine
end

