-- ==== Sys2Proof/Laws/Engine.lean ====
section
/-! SUPPORT. Everything one step of the engine can do, said once: the rows of the transition table with the instructions'
branches written out. Statements over all symbols and states are proved by cases on it. -/

namespace Sys2Proof.Machine

/-- The outputs a symbol can have in a state, with what each needs of the state. -/
inductive StepCase (s : State) : Instr → StepOut → Prop where
  | halted (i : Instr) (h : s.ms = .halted) : StepCase s i (raise .haltedMachine s)
  | skipLoopEnd (d : Nat) (h : s.ms = .skipping d) :
      StepCase s .loopEnd (succeed (s.setMs (if d - 1 = 0 then .running else .skipping (d - 1))).advance)
  | skipLoopStart (d : Nat) (h : s.ms = .skipping d) : StepCase s .loopStart (succeed (s.setMs (.skipping (d + 1))).advance)
  | skipEof (d : Nat) (h : s.ms = .skipping d) : StepCase s .eof (raise (.mismatchedBrackets s.ip d) s)
  | passedOver (i : Instr) (d : Nat) (h : s.ms = .skipping d) (h1 : i ≠ .loopStart) (h2 : i ≠ .loopEnd) (h3 : i ≠ .eof) :
      StepCase s i (succeed s.advance)
  | halt (h : s.ms = .running) : StepCase s .eof (succeed (s.setMs .halted))
  | comment (c : CodePoint) (h : s.ms = .running) : StepCase s (.other c) (succeed s.advance)
  | moveRight (h : s.ms = .running) (hdp : s.dp + 1 < s.cap) : StepCase s .moveRight (succeed (s.setDp (s.dp + 1)).advance)
  | moveRightFault (h : s.ms = .running) (hdp : s.cap ≤ s.dp + 1) : StepCase s .moveRight (raise (.ptrOutOfBounds s.dp) s)
  | moveLeft (h : s.ms = .running) (hdp : 0 < s.dp) : StepCase s .moveLeft (succeed (s.setDp (s.dp - 1)).advance)
  | moveLeftFault (h : s.ms = .running) (hdp : s.dp = 0) : StepCase s .moveLeft (raise (.ptrOutOfBounds s.dp) s)
  | tapeFault (i : Instr) (h : s.ms = .running) (hdp : s.cap ≤ s.dp)
      (hi : i = .increment ∨ i = .decrement ∨ i = .print ∨ i = .loopStart) : StepCase s i (raise (.ptrOutOfBounds s.dp) s)
  | increment (h : s.ms = .running) (hdp : s.dp < s.cap) (hb : (s.tape.read s.dp).toNat ≠ 255) :
      StepCase s .increment (succeed (s.setTape (s.tape.write s.dp (s.tape.read s.dp + 1#8))).advance)
  | incrementFault (h : s.ms = .running) (hdp : s.dp < s.cap) (hb : (s.tape.read s.dp).toNat = 255) :
      StepCase s .increment (raise (.valOutOfBounds s.dp .plusOne) s)
  | decrement (h : s.ms = .running) (hdp : s.dp < s.cap) (hb : (s.tape.read s.dp).toNat ≠ 0) :
      StepCase s .decrement (succeed (s.setTape (s.tape.write s.dp (s.tape.read s.dp - 1#8))).advance)
  | decrementFault (h : s.ms = .running) (hdp : s.dp < s.cap) (hb : (s.tape.read s.dp).toNat = 0) :
      StepCase s .decrement (raise (.valOutOfBounds s.dp .minusOne) s)
  | print (h : s.ms = .running) (hdp : s.dp < s.cap) (hb : (s.tape.read s.dp).toNat ≤ 0x7F) :
      StepCase s .print { succeed (s.emit (s.tape.read s.dp)).advance with outByte := some (s.tape.read s.dp) }
  | printFault (h : s.ms = .running) (hdp : s.dp < s.cap) (hb : 0x80 ≤ (s.tape.read s.dp).toNat) :
      StepCase s .print (raise (.unprintableByte (s.tape.read s.dp)) s)
  | read (b : Byte) (h : s.ms = .running) (hdp : s.dp < s.cap) (hr : s.nextAnswer = some b) :
      StepCase s .read
        { succeed (s.consumeAnswer.setTape (s.tape.write s.dp b)).advance with answer := some s.nextAnswer }
  | readTapeFault (b : Byte) (h : s.ms = .running) (hdp : s.cap ≤ s.dp) (hr : s.nextAnswer = some b) :
      StepCase s .read { raise (.ptrOutOfBounds s.dp) s.consumeAnswer with answer := some s.nextAnswer }
  | readFault (h : s.ms = .running) (hr : s.nextAnswer = none) :
      StepCase s .read { raise .invalidChar s.consumeAnswer with answer := some s.nextAnswer }
  | loopEnter (h : s.ms = .running) (hdp : s.dp < s.cap) (hb : s.tape.read s.dp ≠ 0#8) :
      StepCase s .loopStart (succeed (s.push s.ip).advance)
  | loopSkip (h : s.ms = .running) (hdp : s.dp < s.cap) (hb : s.tape.read s.dp = 0#8) :
      StepCase s .loopStart (succeed (s.setMs (.skipping 1)).advance)
  | loopEnd (rest : List Nat) (t : Nat) (h : s.ms = .running) (hl : s.lrs = rest ++ [t]) :
      StepCase s .loopEnd (succeed { s with lrs := rest, ip := t })
  | loopEndFault (h : s.ms = .running) (hl : s.lrs = []) : StepCase s .loopEnd (raise .stackUnderflow s)

theorem exec_eq_outcomeOf (i : Instr) (s : State) : exec i s = outcomeOf (engineStep i s) := by cases i <;> rfl

theorem engineStep_halted {s : State} (i : Instr) (h : s.ms = .halted) : engineStep i s = raise .haltedMachine s := by
  cases i <;> exact dispatchOn_halted h _ _

theorem engineStep_passedOver {s : State} {d : Nat} (i : Instr) (h : s.ms = .skipping d) (h1 : i ≠ .loopStart)
    (h2 : i ≠ .loopEnd) (h3 : i ≠ .eof) : engineStep i s = succeed s.advance := by
  cases i <;> first | exact dispatchOn_skipping h _ _ | contradiction

/-- The step is always one of the cases. -/
theorem engineStep_case (i : Instr) (s : State) : StepCase s i (engineStep i s) := by
  rcases hm : s.ms with _ | d | _
  · cases i <;> simp only [engineStep, stepMoveRight, stepMoveLeft, stepIncrement, stepDecrement, stepPrint, stepRead,
      stepLoopStart, stepLoopEnd, stepEof, stepOther, dispatchOn_running hm]
    case moveRight =>
      unfold runMoveRight
      split
      · exact .moveRight hm ‹_›
      · exact .moveRightFault hm (by omega)
    case moveLeft =>
      unfold runMoveLeft
      split
      · exact .moveLeft hm ‹_›
      · exact .moveLeftFault hm (by omega)
    case increment =>
      simp only [runDelta, withCell_eq, applyDelta_plusOne]
      split
      · next hdp =>
        by_cases hb : (s.tape.read s.dp).toNat = 255
        · simpa only [if_pos hb] using .incrementFault hm hdp hb
        · simpa only [if_neg hb, storeCell_eq, if_pos hdp] using .increment hm hdp hb
      · exact .tapeFault _ hm (by omega) (by simp)
    case decrement =>
      simp only [runDelta, withCell_eq, applyDelta_minusOne]
      split
      · next hdp =>
        by_cases hb : (s.tape.read s.dp).toNat = 0
        · simpa only [if_pos hb] using .decrementFault hm hdp hb
        · simpa only [if_neg hb, storeCell_eq, if_pos hdp] using .decrement hm hdp hb
      · exact .tapeFault _ hm (by omega) (by simp)
    case print =>
      simp only [runPrint, withCell_eq, printable_eq_true_iff]
      split
      · next hdp =>
        split
        · exact .print hm hdp ‹_›
        · exact .printFault hm hdp (by omega)
      · exact .tapeFault _ hm (by omega) (by simp)
    case read =>
      rcases hr : s.nextAnswer with _ | b
      · simpa only [runRead, hr] using StepCase.readFault hm hr
      · rcases Nat.lt_or_ge s.dp s.cap with hdp | hdp
        · simpa only [runRead, hr, storeCell_eq, State.consumeAnswer_tape, State.consumeAnswer_dp, State.consumeAnswer_cap,
            hdp, if_true] using StepCase.read b hm hdp hr
        · simpa only [runRead, hr, storeCell_eq, State.consumeAnswer_dp, State.consumeAnswer_cap,
            Nat.not_lt.2 hdp, if_false] using StepCase.readTapeFault b hm hdp hr
    case loopStart =>
      simp only [runLoopStart, withCell_eq, cellNonzero_eq_true_iff]
      split
      · next hdp =>
        by_cases hb : s.tape.read s.dp = 0#8
        · simpa only [ne_eq, hb, not_true_eq_false, if_false] using .loopSkip hm hdp hb
        · simpa only [ne_eq, hb, not_false_eq_true, if_true] using .loopEnter hm hdp hb
      · exact .tapeFault _ hm (by omega) (by simp)
    case loopEnd =>
      unfold runLoopEnd
      split
      · next hp => exact .loopEndFault hm (pop_eq_none_iff.1 hp)
      · next t u hp =>
        obtain ⟨rest, hl, rfl⟩ := pop_eq_some_iff.1 hp
        exact .loopEnd rest t hm hl
    case eof => exact .halt hm
    case other c => exact .comment c hm
  · by_cases h1 : i = .loopStart
    · subst h1; simpa only [engineStep, stepLoopStart, dispatchOn_skipping hm] using .skipLoopStart d hm
    by_cases h2 : i = .loopEnd
    · subst h2; simpa only [engineStep, stepLoopEnd, dispatchOn_skipping hm] using .skipLoopEnd d hm
    by_cases h3 : i = .eof
    · subst h3; simpa only [engineStep, stepEof, dispatchOn_skipping hm] using .skipEof d hm
    rw [engineStep_passedOver i hm h1 h2 h3]
    exact .passedOver i d hm h1 h2 h3
  · rw [engineStep_halted i hm]
    exact .halted i hm

/-- The fetch word at `ip` decodes to EOF exactly from the end of the source on. -/
theorem decode_fetchWord_eq_eof_iff (s : State) : decode s.fetchWord = .eof ↔ s.src.length ≤ s.ip := by
  rcases Nat.lt_or_ge s.ip s.src.length with h | h
  · have hne : ofCodePoint s.src[s.ip] ≠ .eof := fun he => by
      have := congrArg charOf he
      rw [charOf_ofCodePoint] at this
      cases this
    simp [State.fetchWord, decode, fetchAt, List.getElem?_eq_getElem h, hne, Nat.not_le.2 h]
  · simp [State.fetchWord, decode, fetchAt, h]

end Sys2Proof.Machine
end

