-- ==== Sys2Proof/Laws/Driver.lean ====
section
/-! SUPPORT. The driver's stop test and cycle, and induction over the cycles of a run, packaged once. -/

namespace Sys2Proof.Machine

variable {o : StepOut} {r : Run} {f : Fault}

theorem outcomeAfter_eq_faulted_iff : outcomeAfter o = some (.faulted f) ↔ o.result = .fault f := by
  unfold outcomeAfter; split <;> simp_all

theorem outcomeAfter_eq_succeeded_iff : outcomeAfter o = some .succeeded ↔ o.result = .ok ∧ o.state.ms = .halted := by
  unfold outcomeAfter State.msOut; split <;> simp_all

theorem outcomeAfter_eq_none_iff : outcomeAfter o = none ↔ o.result = .ok ∧ o.state.ms ≠ .halted := by
  unfold outcomeAfter State.msOut; split <;> simp_all

theorem Run.cycle_of_stopped {x : RunOutcome} (h : r.outcome = some x) : r.cycle = r := by simp [Run.cycle, h]

theorem Run.cycle_of_going (h : r.outcome = none) :
    r.cycle = { state := (engineStep (decode r.state.fetchWord) r.state).state,
                outcome := outcomeAfter (engineStep (decode r.state.fetchWord) r.state) } := by
  simp [Run.cycle, h]

/-- What holds at the start of a run and is kept by every cycle that the driver makes holds after any number of them. -/
theorem Run.cycles_induction (P : Run → Prop) (hs : ∀ r, r.outcome = none → P r → P r.cycle) :
    ∀ (n : Nat) (r : Run), P r → P (r.cycles n)
  | 0, _, h => h
  | n + 1, r, h => Run.cycles_induction P hs n r.cycle <| by
      cases ho : r.outcome with
      | none => exact hs r ho h
      | some x => rwa [Run.cycle_of_stopped ho]

end Sys2Proof.Machine
end

