-- ==== Sys2Proof/Laws/PerInstr.lean ====
section
/-! SUPPORT. The laws stated of every instruction as syntax, one lemma per constructor. -/

namespace Sys2Proof.Laws.EncodingRow

/-- The encoder's word of a symbol satisfies the match and mask of the symbol's own row in spec/opcode_table.json. -/
def Statement (i : Instr) : Prop := encode i &&& rowMask i = rowMatch i

theorem moveRight : Statement .moveRight := by unfold Statement; decide

theorem moveLeft : Statement .moveLeft := by unfold Statement; decide

theorem increment : Statement .increment := by unfold Statement; decide

theorem decrement : Statement .decrement := by unfold Statement; decide

theorem print : Statement .print := by unfold Statement; decide

theorem read : Statement .read := by unfold Statement; decide

theorem loopStart : Statement .loopStart := by unfold Statement; decide

theorem loopEnd : Statement .loopEnd := by unfold Statement; decide

theorem eof : Statement .eof := by unfold Statement; decide

theorem other (c : CodePoint) : Statement (.other c) := by
  have hc : c.setWidth 22 &&& 0x200000#22 = 0#22 := by
    have hz : ∀ j : Fin 21, (0x200000#22).getLsbD j = false := by decide
    ext i hi
    rcases Nat.lt_or_eq_of_le (Nat.lt_succ_iff.1 hi) with hlt | rfl
    · have h2 : (0x200000#22)[i] = false := hz ⟨i, hlt⟩
      simp [h2]
    · simp
  show (0x200000#22 ||| c.setWidth 22) &&& 0x200000#22 = 0x200000#22
  rw [BitVec.and_or_distrib_right, hc]
  decide

end Sys2Proof.Laws.EncodingRow
end

