-- ==== Sys2Proof/Tests/Slice0.lean ====
section
/-! SUPPORT. Tests with values written out from the spec's encodings and vectors, and a witness for the hypotheses of every
statement that has some. -/

namespace Sys2Proof.Machine.Tests

/-! ## WellFormed: a term that each check refuses, and its neighbours that it accepts -/

/-- `Other` may not carry one of the eight instruction characters, and may carry their neighbours (30_encoding.md R81). -/
theorem test_wellFormed_other :
    (Instr.other 0x2B#21).wellFormed = false ∧ (Instr.other 0x5D#21).wellFormed = false ∧
    (Instr.other 0x5C#21).wellFormed = true ∧ (Instr.other 0x12B#21).wellFormed = true ∧ Instr.eof.wellFormed = true := by decide

/-- Surrogates and what lies above 0x10FFFF are no characters; the ends of the two ranges are (30_encoding.md R85). -/
theorem test_sourceOfCharacters :
    sourceOfCharacters [0xD800#21] = false ∧ sourceOfCharacters [0x2B#21, 0x110000#21] = false ∧
    sourceOfCharacters [0xD7FF#21, 0xE000#21, 0x10FFFF#21, 0#21] = true := by decide

/-! ## Decoding: words written out bit by bit, `v` first, then the 21 bits of `cp` (95_test_vectors.md part 2) -/

theorem test_decode_moveRight : decode 0b1_0_0000_0000_0000_0011_1110#22 = .moveRight := by decide
theorem test_decode_moveLeft : decode 0b1_0_0000_0000_0000_0011_1100#22 = .moveLeft := by decide
theorem test_decode_increment : decode 0b1_0_0000_0000_0000_0010_1011#22 = .increment := by decide
theorem test_decode_decrement : decode 0b1_0_0000_0000_0000_0010_1101#22 = .decrement := by decide
theorem test_decode_print : decode 0b1_0_0000_0000_0000_0010_1110#22 = .print := by decide
theorem test_decode_read : decode 0b1_0_0000_0000_0000_0010_1100#22 = .read := by decide
theorem test_decode_loopStart : decode 0b1_0_0000_0000_0000_0101_1011#22 = .loopStart := by decide
theorem test_decode_loopEnd : decode 0b1_0_0000_0000_0000_0101_1101#22 = .loopEnd := by decide
theorem test_decode_eof :
    decode 0b0_0_0000_0000_0000_0000_0000#22 = .eof ∧ decode 0b0_0_0000_0000_0000_0010_1011#22 = .eof ∧
    decode 0b0_1_1111_1111_1111_1111_1111#22 = .eof := by decide
theorem test_decode_other :
    decode 0b1_0_0000_0000_0001_0010_1011#22 = .other 0x12B#21 ∧ decode 0b1_0_0000_0000_0000_0000_0000#22 = .other 0#21 ∧
    decode 0b1_0_0000_0010_0010_0001_0010#22 = .other 0x2212#21 := by decide

/-- The encoder gives the opcode table's match words, and Other's character in place. -/
theorem test_encode :
    encode .moveRight = 0x20003E#22 ∧ encode .moveLeft = 0x20003C#22 ∧ encode .increment = 0x20002B#22 ∧
    encode .decrement = 0x20002D#22 ∧ encode .print = 0x20002E#22 ∧ encode .read = 0x20002C#22 ∧
    encode .loopStart = 0x20005B#22 ∧ encode .loopEnd = 0x20005D#22 ∧ encode .eof = 0#22 ∧
    encode (.other 0x1F600#21) = 0x21F600#22 := by decide

/-- The table's numbering: bit 21 is `v`; a number of more than 22 bits is no fetch word. -/
theorem test_decodeTableWord :
    decodeTableWord 24 0x20005B = some .loopStart ∧ decodeTableWord 24 0x3FFFFF = some (.other 0x1FFFFF#21) ∧
    decodeTableWord 24 0x400000 = none := by decide

/-! ## One step of each symbol (95_test_vectors.md part 3; C = 30000) -/

/-- A state of those vectors: one cell holds a byte, every other cell 0; no program, and the input answers given. -/
def bench (ms : MState) (dp ip : Nat) (cell : Byte) (lrs : List Nat) (answers : List (Option Byte)) : State :=
  { State.fresh 30000 [] answers with ms := ms, dp := dp, ip := ip, tape := Memory.cons dp cell [], lrs := lrs }

/-- A step that succeeds, calls no collaborator, and ends in the state given. -/
def okTo (t : State) : StepOut := { state := t, result := .ok, answer := none, outByte := none }

/-- A step that faults and leaves the state given, calling no collaborator. -/
def faultAt (f : Fault) (s : State) : StepOut := { state := s, result := .fault f, answer := none, outByte := none }

/-- V21: the last cell is reached. -/
theorem test_moveRight_last :
    engineStep .moveRight (bench .running 29998 5 0#8 [] []) = okTo (bench .running 29999 6 0#8 [] []) := by decide
/-- V22: no wrap to cell 0, and the payload is not 30000. -/
theorem test_moveRight_faults :
    engineStep .moveRight (bench .running 29999 5 0#8 [] []) = faultAt (.ptrOutOfBounds 29999) (bench .running 29999 5 0#8 [] []) := by
  decide
/-- V26. -/
theorem test_moveLeft_first :
    engineStep .moveLeft (bench .running 1 2 0#8 [] []) = okTo (bench .running 0 3 0#8 [] []) := by decide
/-- V27. -/
theorem test_moveLeft_faults :
    engineStep .moveLeft (bench .running 0 2 0#8 [] []) = faultAt (.ptrOutOfBounds 0) (bench .running 0 2 0#8 [] []) := by decide
/-- V33. -/
theorem test_increment_254 :
    engineStep .increment (bench .running 7 3 254#8 [] []) = okTo (bench .running 7 4 255#8 [] []) := by decide
/-- V34: no wrap. -/
theorem test_increment_faults :
    engineStep .increment (bench .running 7 3 255#8 [] []) = faultAt (.valOutOfBounds 7 .plusOne) (bench .running 7 3 255#8 [] []) := by
  decide
/-- V35: the zero cell leaves the tape's list, so the tape is as if never written. -/
theorem test_decrement_1 :
    engineStep .decrement (bench .running 0 3 1#8 [] []) = okTo (bench .running 0 4 0#8 [] []) := by decide
/-- V38. -/
theorem test_decrement_faults :
    engineStep .decrement (bench .running 29999 3 0#8 [] []) =
      faultAt (.valOutOfBounds 29999 .minusOne) (bench .running 29999 3 0#8 [] []) := by decide
/-- V43: the largest printable byte. -/
theorem test_print_7F :
    engineStep .print (bench .running 0 1 0x7F#8 [] []) =
      { okTo { bench .running 0 2 0x7F#8 [] [] with output := [0x7F#8] } with outByte := some 0x7F#8 } := by decide
/-- V44. -/
theorem test_print_80 :
    engineStep .print (bench .running 0 1 0x80#8 [] []) = faultAt (.unprintableByte 0x80#8) (bench .running 0 1 0x80#8 [] []) := by
  decide
/-- V47: overwritten, not added to. -/
theorem test_read_some :
    engineStep .read (bench .running 0 0 9#8 [] [some 0x41#8]) =
      { okTo { bench .running 0 1 0x41#8 [] [some 0x41#8] with inputPos := 1 } with answer := some (some 0x41#8) } := by decide
/-- V50: the answer is consumed, the cell kept. -/
theorem test_read_none :
    engineStep .read (bench .running 0 0 9#8 [] [none]) =
      { faultAt .invalidChar { bench .running 0 0 9#8 [] [none] with inputPos := 1 } with answer := some none } := by decide
/-- V53: the index of the `[` itself is pushed, on top. -/
theorem test_loopStart_enters :
    engineStep .loopStart (bench .running 0 9 255#8 [2, 5] []) = okTo (bench .running 0 10 255#8 [2, 5, 9] []) := by decide
/-- V55: nothing is pushed. -/
theorem test_loopStart_skips :
    engineStep .loopStart (bench .running 0 9 0#8 [2, 5] []) = okTo (bench (.skipping 1) 0 10 0#8 [2, 5] []) := by decide
/-- V57: to the top entry, no advance. -/
theorem test_loopEnd_pops :
    engineStep .loopEnd (bench .running 0 12 0#8 [2, 5, 9] []) = okTo (bench .running 0 9 0#8 [2, 5] []) := by decide
/-- V59. -/
theorem test_loopEnd_faults :
    engineStep .loopEnd (bench .running 0 2 77#8 [] []) = faultAt .stackUnderflow (bench .running 0 2 77#8 [] []) := by decide
/-- V18: the stack is not checked, `ip` stays. -/
theorem test_eof_halts :
    engineStep .eof (bench .running 0 2 1#8 [1] []) = okTo (bench .halted 0 2 1#8 [1] []) := by decide
/-- V9. -/
theorem test_eof_skipping :
    engineStep .eof (bench (.skipping 3) 0 9 0#8 [] []) = faultAt (.mismatchedBrackets 9 3) (bench (.skipping 3) 0 9 0#8 [] []) := by
  decide
/-- V19. -/
theorem test_other_advances :
    engineStep (.other 0x0A#21) (bench .running 0 7 0#8 [] []) = okTo (bench .running 0 8 0#8 [] []) := by decide

/-! ## Skipping and Halted -/

/-- V6 and V7: counted, not popped. -/
theorem test_skipped_loopEnd :
    engineStep .loopEnd (bench (.skipping 1) 0 3 0#8 [1] []) = okTo (bench .running 0 4 0#8 [1] []) ∧
    engineStep .loopEnd (bench (.skipping 2) 0 6 0#8 [] []) = okTo (bench (.skipping 1) 0 7 0#8 [] []) := by decide
/-- V8: the cell is not tested, nothing is pushed. -/
theorem test_skipped_loopStart :
    engineStep .loopStart (bench (.skipping 1) 0 1 5#8 [] []) = okTo (bench (.skipping 2) 0 2 5#8 [] []) := by decide
/-- V10, V12, V13, V14: none of them would be harmless in Running. -/
theorem test_skipped_others :
    engineStep .moveLeft (bench (.skipping 1) 0 2 0#8 [] []) = okTo (bench (.skipping 1) 0 3 0#8 [] []) ∧
    engineStep .increment (bench (.skipping 1) 0 2 255#8 [] []) = okTo (bench (.skipping 1) 0 3 255#8 [] []) ∧
    engineStep .print (bench (.skipping 1) 0 2 200#8 [] []) = okTo (bench (.skipping 1) 0 3 200#8 [] []) ∧
    engineStep .read (bench (.skipping 1) 0 2 9#8 [] [none]) = okTo (bench (.skipping 1) 0 3 9#8 [] [none]) := by decide
/-- V1 and V3: no answer is consumed. -/
theorem test_halted :
    engineStep .eof (bench .halted 0 4 0#8 [] []) = faultAt .haltedMachine (bench .halted 0 4 0#8 [] []) ∧
    engineStep .read (bench .halted 0 4 0#8 [] [none]) = faultAt .haltedMachine (bench .halted 0 4 0#8 [] [none]) := by decide

/-! ## The step, the placed word, the run -/

/-- The next state of a step, where there is one. -/
def nextOf : Host.Outcome State Fault Refusal → Option State
  | .next s => some s
  | .fault _ => none
  | .refused _ => none

/-- The fault of a step, where there is one. -/
def faultOf : Host.Outcome State Fault Refusal → Option Fault
  | .next _ => none
  | .fault f => some f
  | .refused _ => none

/-- Fetched from the source at `ip`, Scenario B's fault and Scenario A's first step. -/
theorem test_step_fetches :
    faultOf (step (State.fresh 30000 [0x2D#21] [])) = some (.valOutOfBounds 0 .minusOne) ∧
    (nextOf (step (State.fresh 30000 [0x2B#21, 0x2D#21] []))).map (fun t => (t.tape, t.ip)) = some ([(0, 1#8)], 1) := by decide

/-- A word placed after reset is run by the next step: `+`, EOF, and `[` on the zero cell. -/
theorem test_withFetchWord :
    (nextOf (step (State.reset.withFetchWord 24 0x20002B))).map (·.tape) = some [(0, 1#8)] ∧
    (nextOf (step (State.reset.withFetchWord 24 0x000000))).map (·.ms) = some .halted ∧
    (nextOf (step (State.reset.withFetchWord 24 0x20005B))).map (·.ms) = some (.skipping 1) := by decide

/-- Placed past the end of the source, at the `ip` where the fetch looks, the source below it kept. -/
theorem test_withFetchWord_pads :
    ({ State.fresh 9 [0x2B#21] [] with ip := 3 }.withFetchWord 24 0x20005D).src = [0x2B#21, 0#21, 0#21, 0x5D#21] := by decide

/-- W3: `+[` ends with success, the open loop unreported; one cycle before, it has not ended. -/
theorem test_run_open_loop :
    ((Run.start 30000 [0x2B#21, 0x5B#21] []).cycles 3).outcome = some .succeeded ∧
    ((Run.start 30000 [0x2B#21, 0x5B#21] []).cycles 3).state.lrs = [1] ∧
    ((Run.start 30000 [0x2B#21, 0x5B#21] []).cycles 2).outcome = none := by decide

/-- W6: `[[]`. -/
theorem test_run_unclosed :
    ((Run.start 30000 [0x5B#21, 0x5B#21, 0x5D#21] []).cycles 4).outcome = some (.faulted (.mismatchedBrackets 3 1)) := by decide

/-- 93_implementation_defined.md U4: capacity 0 is refused; the codes of 10_state.md R30 and 60_exceptions.md R208. -/
theorem test_codes :
    newEngine 0 [] [] = .refused .zeroCapacity ∧ machineStateCode (.skipping 7) = (1#2, some 7) ∧
    resultCode (.fault (.unprintableByte 0x80#8)) = (true, some 6) ∧ resultCode .ok = (false, none) ∧
    symbolTag (.other 0x2A#21) = 9#4 := ⟨rfl, by decide⟩

/-- The reference input collaborator's lines `A`, `AB`, `é` and no characters (95_test_vectors.md 3.4). -/
theorem test_lineAnswer :
    lineAnswer [0x41#21] = some 0x41#8 ∧ lineAnswer [0x41#21, 0x42#21] = some 0x41#8 ∧ lineAnswer [0xE9#21] = none ∧
    lineAnswer [] = none := by decide

/-! ## Witnesses: for every statement with hypotheses, inputs that meet them, each clause at a boundary of its range -/

/-- A state of capacity 3, in the midst of `+[-],.`, with a cell at each end of the tape, two answers and one byte printed. -/
def demo : State where
  tape := [(0, 0x41#8), (2, 255#8)]
  dp := 1
  ip := 2
  lrs := [1]
  ms := .running
  inputPos := 0
  output := [0x7F#8]
  cap := 3
  src := [0x2B#21, 0x5B#21, 0x2D#21, 0x5D#21, 0x2C#21, 0x2E#21]
  answers := [some 0x41#8, none]

theorem demo_inv : demo.Inv :=
  ⟨by decide, by decide, by decide, by decide, by decide, by decide, (by intro d h; cases h), by decide⟩

/-- `demo` with one cell, its first, holding a byte, and that cell selected. -/
def demoCell (b : Byte) : State := { demo with tape := Memory.cons 0 b [], dp := 0 }

theorem witness_DecodeOfEncodeIsIdentity : (Instr.other 0x5C#21).wellFormed = true ∧ Instr.loopEnd.wellFormed = true := by decide

theorem witness_EncodeOfDecodeIsTheWord : (0x200000#22).getLsbD 21 = true ∧ (0x1FFFFF#22).getLsbD 21 = false := by decide

theorem witness_DecoderIsTheMatchAndMaskTable :
    0x20003D#22 &&& 0x200000#22 = 0x200000#22 ∧ (0x20003D#22).setWidth 21 = 0x3D#21 ∧ 0x3D#21 ∉ instructionCodePoints ∧
    0x00002B#22 &&& 0x200000#22 = 0#22 ∧ 0x20002B#22 &&& 0x3FFFFF#22 = 0x20002B#22 := by decide

theorem witness_StepRunsTheSymbolAtIp :
    (decode demo.fetchWord = .decrement ∧ Instr.decrement.wellFormed = true) ∧ demo.src[demo.ip]? = some 0x2D#21 ∧
    (let s := { demo with ip := 6 }
     s.src.length ≤ s.ip ∧ s.src.length = s.ip) := by decide

theorem witness_PlacedWordIsRunByTheNextStep :
    0x3FFFFF < 2 ^ 22 ∧ 0 < 2 ^ 22 ∧ 1 < demo.ip ∧ 1 < demo.src.length := by decide

theorem witness_FreshMachineHasTheResetValues :
    (State.reset = State.reset ∨ ∃ cap src answers, State.reset = State.fresh cap src answers) ∧ 29999 < State.reset.cap ∧
    (State.fresh 1 [] [] = State.reset ∨ ∃ cap src answers, State.fresh 1 [] [] = State.fresh cap src answers) ∧
    0 < (State.fresh 1 [] []).cap := ⟨.inl rfl, by decide, .inr ⟨1, [], [], rfl⟩, by decide⟩

theorem witness_ResetMakesAFreshEngine : (0 : Nat) = 0 ∧ (1 : Nat) ≤ 1 ∧ 2 < demo.cap ∧ 1 ≤ demo.cap := by decide

theorem witness_TapeWriteStoresOneCell : 2 < demo.cap ∧ 0 < demo.cap ∧ demo.tape.wf := by decide

theorem witness_RewritingACellLeavesTheTapeEqual :
    demo.tape.wf ∧ memRead demo 2 = .ok 255#8 ∧ memWrite demo 2 255#8 = .ok demo ∧ memRead demo 1 = .ok 0#8 ∧
    memWrite demo 1 0#8 = .ok demo := ⟨by decide, rfl, rfl, rfl, rfl⟩

theorem witness_TapeAccessFailsFromTheCapacityOn : demo.cap ≤ 3 ∧ demo.Inv := ⟨by decide, demo_inv⟩

theorem witness_StackIsLastInFirstOut :
    ({ demo with lrs := [] }.lrs = [] ∧ { demo with lrs := [] }.ms = .running) ∧ demo.pop = some (1, { demo with lrs := [] }) := by
  decide

theorem witness_HaltedFaultsOnEverySymbol : { demo with ms := .halted }.ms = .halted := by decide

theorem witness_SkippedLoopEndIsCounted :
    ({ demo with ms := .skipping 1 }.ms = .skipping 1 ∧ 1 ≤ 1 ∧ 1 = 1) ∧
    ({ demo with ms := .skipping 2 }.ms = .skipping 2 ∧ 1 ≤ 2 ∧ 2 ≤ 2) := by decide

theorem witness_SkippedLoopStartIsCounted : { demo with ms := .skipping 1 }.ms = .skipping 1 := by decide

theorem witness_EofWhileSkippingFaults : { demo with ms := .skipping 1 }.ms = .skipping 1 := by decide

theorem witness_SkippedSymbolOnlyAdvances :
    { demo with ms := .skipping 1 }.ms = .skipping 1 ∧
    ∀ i ∈ [Instr.moveRight, .moveLeft, .increment, .decrement, .print, .read, .other 0x41#21],
      i ≠ .loopStart ∧ i ≠ .loopEnd ∧ i ≠ .eof := by decide

/-- The last symbol ends the skip, so the list is as long as the hypothesis lets one be. -/
theorem witness_SkippingTouchesNoData :
    let is : List Instr := [.loopStart, .read, .loopEnd, .loopEnd]
    let s := { demo with ms := .skipping 1 }
    s.ms = .skipping 1 ∧ (∀ k, k < is.length → ∃ e, (feedAll (is.take k) s).ms = .skipping e) ∧ (feedAll is s).ms = .running := by
  refine ⟨rfl, fun k hk => ?_, by decide⟩
  have : k = 0 ∨ k = 1 ∨ k = 2 ∨ k = 3 := by simp at hk; omega
  rcases this with rfl | rfl | rfl | rfl
  exacts [⟨1, rfl⟩, ⟨2, rfl⟩, ⟨2, rfl⟩, ⟨1, rfl⟩]

theorem witness_EofWhileRunningHalts : demo.ms = .running ∧ demo.lrs ≠ [] := by decide

theorem witness_OtherWhileRunningAdvances : demo.ms = .running := by decide

theorem witness_MoveRightMovesOrFaults :
    (demo.ms = .running ∧ demo.dp + 1 < demo.cap ∧ demo.dp + 1 = demo.cap - 1) ∧
    (let s := { demo with dp := 2 }
     s.ms = .running ∧ ¬ s.dp + 1 < s.cap) := by decide

theorem witness_MoveLeftMovesOrFaults :
    (demo.ms = .running ∧ 0 < demo.dp ∧ demo.dp = 1) ∧ (let s := { demo with dp := 0 }; s.ms = .running ∧ s.dp = 0) := by decide

theorem witness_IncrementAddsOneOrFaults :
    (demoCell 254#8).ms = .running ∧ (demoCell 254#8).tape.wf ∧
    memRead (demoCell 254#8) (demoCell 254#8).cellAddress = .ok 254#8 ∧ 254#8 ≠ 255#8 ∧
    (demoCell 255#8).ms = .running ∧ (demoCell 255#8).tape.wf ∧
    memRead (demoCell 255#8) (demoCell 255#8).cellAddress = .ok 255#8 :=
  ⟨rfl, by decide, rfl, by decide, rfl, by decide, rfl⟩

theorem witness_DecrementSubtractsOneOrFaults :
    (demoCell 1#8).ms = .running ∧ (demoCell 1#8).tape.wf ∧ memRead (demoCell 1#8) (demoCell 1#8).cellAddress = .ok 1#8 ∧
    1#8 ≠ 0#8 ∧ (demoCell 0#8).ms = .running ∧ (demoCell 0#8).tape.wf ∧
    memRead (demoCell 0#8) (demoCell 0#8).cellAddress = .ok 0#8 :=
  ⟨rfl, by decide, rfl, by decide, rfl, by decide, rfl⟩

theorem witness_PrintEmitsTheCellOrFaults :
    (demoCell 0x7F#8).ms = .running ∧ memRead (demoCell 0x7F#8) (demoCell 0x7F#8).cellAddress = .ok 0x7F#8 ∧
    (0x7F#8).toNat ≤ 0x7F ∧ (demoCell 0x80#8).ms = .running ∧
    memRead (demoCell 0x80#8) (demoCell 0x80#8).cellAddress = .ok 0x80#8 ∧ 0x80 ≤ (0x80#8).toNat :=
  ⟨rfl, rfl, by decide, rfl, rfl, by decide⟩

theorem witness_ReadStoresTheAnswerOrFaults :
    (demo.ms = .running ∧ demo.tape.wf ∧ demo.dp < demo.cap ∧ demo.nextAnswer = some 0x41#8) ∧
    (let s := { demo with inputPos := 1, dp := 2 }
     s.ms = .running ∧ s.tape.wf ∧ s.dp < s.cap ∧ s.nextAnswer = none) := by decide

theorem witness_ReadsTakeTheAnswersInOrder :
    demo.ms = .running ∧ demo.inputPos < demo.answers.length ∧ demo.inputPos + 1 < demo.answers.length := by decide

theorem witness_LoopStartEntersOrSkips :
    (demoCell 1#8).ms = .running ∧ memRead (demoCell 1#8) (demoCell 1#8).cellAddress = .ok 1#8 ∧ 1#8 ≠ 0#8 ∧
    (demoCell 0#8).ms = .running ∧ memRead (demoCell 0#8) (demoCell 0#8).cellAddress = .ok 0#8 :=
  ⟨rfl, rfl, by decide, rfl, rfl⟩

theorem witness_LoopEndPopsAndJumpsOrFaults :
    (demo.ms = .running ∧ demo.lrs = [] ++ [1] ∧ demo.Inv) ∧
    ({ demo with lrs := [] }.ms = .running ∧ { demo with lrs := [] }.lrs = []) := ⟨⟨rfl, rfl, demo_inv⟩, rfl, rfl⟩

theorem witness_TapeFaultComesInTheStatedOrder :
    (let s := { demo with dp := 3 }
     s.ms = .running ∧ s.cap ≤ s.dp ∧ s.nextAnswer = some 0x41#8) ∧
    (let s := { demo with dp := 3, inputPos := 1 }
     s.ms = .running ∧ s.cap ≤ s.dp ∧ s.nextAnswer = none) := by decide

theorem witness_FaultChangesNoEngineState :
    (let s := { demo with inputPos := 1 }
     (engineStep .read s).result = .fault .invalidChar ∧ s.ms = .running) ∧
    (engineStep .decrement demo).result = .fault (.valOutOfBounds 1 .minusOne) ∧
    (engineStep .read { demo with ms := .halted }).result = .fault .haltedMachine := by decide

/-- In states that meet the invariant: Halted's fault, Skipping's, and the seven of Running, one for each line. -/
theorem witness_FaultsAreExactlyTheTable :
    demo.Inv ∧ State.Inv { demo with ms := .skipping 1 } ∧
    (engineStep .print { demo with ms := .halted }).result = .fault .haltedMachine ∧
    (engineStep .eof { demo with ms := .skipping 1 }).result = .fault (.mismatchedBrackets 2 1) ∧
    (engineStep .moveRight { demo with dp := 2 }).result = .fault (.ptrOutOfBounds 2) ∧
    (engineStep .moveLeft { demo with dp := 0 }).result = .fault (.ptrOutOfBounds 0) ∧
    (engineStep .increment { demo with dp := 2 }).result = .fault (.valOutOfBounds 2 .plusOne) ∧
    (engineStep .decrement demo).result = .fault (.valOutOfBounds 1 .minusOne) ∧
    (engineStep .read { demo with inputPos := 1 }).result = .fault .invalidChar ∧
    (engineStep .loopEnd { demo with lrs := [] }).result = .fault .stackUnderflow ∧
    (engineStep .print (demoCell 0x80#8)).result = .fault (.unprintableByte 0x80#8) :=
  ⟨demo_inv, ⟨by decide, by decide, by decide, by decide, by decide, by decide, by rintro d ⟨⟩; decide, by decide⟩, by decide⟩

theorem witness_SuccessfulStepMovesIpByTheRule :
    (∃ t, exec .loopEnd demo = .next t) ∧ (∃ t, exec .eof demo = .next t) ∧ (∃ t, exec .loopStart demo = .next t) ∧
    (∃ t, exec .loopEnd { demo with ms := .skipping 1 } = .next t) := ⟨⟨_, rfl⟩, ⟨_, rfl⟩, ⟨_, rfl⟩, ⟨_, rfl⟩⟩

theorem witness_StackIsWrittenOnlyByLoopInstructions :
    entersLoop .loopStart (demoCell 1#8) = true ∧ leavesLoop .loopEnd demo = true ∧
    (entersLoop .loopStart (demoCell 0#8) = false ∧ leavesLoop .loopStart (demoCell 0#8) = false) := by decide

/-- Two states that differ in everything but the engine's five, and for Read in everything but the answer too. -/
theorem witness_ResponseDependsOnlyOnEngineSymbolAndAnswer :
    let u := { demo with inputPos := 4, output := [], src := [], answers := [none, none, none, none, some 0x41#8] }
    demo.sameEngine u ∧ u.cap = demo.cap ∧ (Instr.read = .read → u.nextAnswer = demo.nextAnswer) ∧
    (let v := { u with answers := [] }
     demo.sameEngine v ∧ v.cap = demo.cap ∧ (Instr.print = .read → v.nextAnswer = demo.nextAnswer)) :=
  ⟨⟨rfl, rfl, rfl, rfl, rfl⟩, rfl, fun _ => rfl, ⟨rfl, rfl, rfl, rfl, rfl⟩, rfl, nofun⟩

theorem witness_HaltedIsNeverLeft : { demo with ms := .halted }.ms = .halted := by decide

theorem witness_EveryStepKeepsTheInvariant : State.Inv { demo with ip := 3 } ∧ ∃ t, step { demo with ip := 3 } = .next t :=
  ⟨⟨by decide, by decide, by decide, by decide, by decide, by decide, (by intro d h; cases h), by decide⟩, _, rfl⟩

theorem witness_EverySymbolSequenceKeepsTheInvariant : demo.Inv ∧ (1 : Nat) ≤ 1 := ⟨demo_inv, by decide⟩

/-- A sequence that enters two loops and leaves one. -/
theorem witness_StackLengthCountsTheOpenLoops :
    (1 : Nat) ≤ 1 ∧
    (let is : List Instr := [.increment, .loopStart, .loopStart, .loopEnd]
     loopsEntered is (State.fresh 1 [] []) = 2 ∧ loopsLeft is (State.fresh 1 [] []) = 1) := by decide

theorem witness_CycleIsAStepAndTheStopTest :
    (∃ x, (Run.mk demo (some .succeeded)).outcome = some x) ∧
    ((Run.mk { demo with ip := 6 } none).outcome = none ∧ step { demo with ip := 6 } = .next { demo with ip := 6, ms := .halted }) ∧
    ((Run.mk demo none).outcome = none ∧ step demo = .fault (.valOutOfBounds 1 .minusOne)) :=
  ⟨⟨_, rfl⟩, ⟨rfl, rfl⟩, rfl, rfl⟩

theorem witness_RunSucceedsExactlyByEofInRunning :
    (Run.mk { demo with ip := 6 } none).outcome = none ∧ (Run.mk { demo with ip := 6 } none).cycle.outcome = some .succeeded := by
  decide

theorem witness_RunKeepsIpWithinTheSource :
    (1 : Nat) ≤ 1 ∧ ((Run.start 1 [0x2B#21] []).cycles 1).state.ip = 1 ∧ ((Run.start 1 [0x2B#21] []).cycles 0).state.ip = 0 := by
  decide

/-- One run for each fault that a run can end with: `>`, `<`, `-`, `,+` of 255, `,` of nothing, `]`, `[`, `,.` of 0x80. -/
theorem witness_RunFaultsCarryTheStatedPayloads :
    ((Run.start 1 [0x3E#21] []).cycles 1).outcome = some (.faulted (.ptrOutOfBounds 0)) ∧
    ((Run.start 2 [0x3E#21, 0x3E#21] []).cycles 2).outcome = some (.faulted (.ptrOutOfBounds 1)) ∧
    ((Run.start 2 [0x3C#21] []).cycles 1).outcome = some (.faulted (.ptrOutOfBounds 0)) ∧
    ((Run.start 1 [0x2D#21] []).cycles 1).outcome = some (.faulted (.valOutOfBounds 0 .minusOne)) ∧
    ((Run.start 1 [0x2C#21, 0x2B#21] [some 255#8]).cycles 2).outcome = some (.faulted (.valOutOfBounds 0 .plusOne)) ∧
    ((Run.start 1 [0x2C#21] [none]).cycles 1).outcome = some (.faulted .invalidChar) ∧
    ((Run.start 1 [0x5D#21] []).cycles 1).outcome = some (.faulted .stackUnderflow) ∧
    ((Run.start 1 [0x5B#21] []).cycles 2).outcome = some (.faulted (.mismatchedBrackets 1 1)) ∧
    ((Run.start 1 [0x2C#21, 0x2E#21] [some 0x80#8]).cycles 2).outcome = some (.faulted (.unprintableByte 0x80#8)) := by decide

/-- `+[` after two cycles has an entry on the stack; `[[` after two has depth two. -/
theorem witness_RunStackHoldsLoopStartPositions :
    (1 : Nat) ≤ 1 ∧ 1 ∈ ((Run.start 1 [0x2B#21, 0x5B#21] []).cycles 2).state.lrs ∧
    ((Run.start 1 [0x5B#21, 0x5B#21] []).cycles 2).state.ms = .skipping 2 := by decide

/-- Scenario E, before its fourth cycle. -/
theorem witness_LoopEndJumpsToItsTextualMatch :
    let r := (Run.start 1 [0x2B#21, 0x5B#21, 0x2D#21, 0x5D#21] []).cycles 3
    r.outcome = none ∧ r.state.ms = .running ∧ (fetchAt r.state.src r.state.ip).map ofCodePoint = some .loopEnd ∧
    r.state.lrs.getLast? = some 1 := by decide

/-- `[[-]]` on a zero cell: the match of the bracket at 0 is at 4. -/
theorem witness_SkippingStopsAfterTheTextualMatch :
    let s := State.fresh 1 [0x5B#21, 0x5B#21, 0x2D#21, 0x5D#21, 0x5D#21] []
    s.ms = .running ∧ memRead s s.cellAddress = .ok 0#8 ∧ matchingBracket s.src s.ip 4 := by
  refine ⟨rfl, rfl, by decide, by decide, by decide, by decide, fun r h1 h2 => ?_⟩
  change 0 < r at h1
  interval_cases r <;> decide

/-- `[[]` on a zero cell: the bracket at 0 has no match. -/
theorem witness_UnmatchedSkippedLoopFaultsAtTheEnd :
    let s := State.fresh 1 [0x5B#21, 0x5B#21, 0x5D#21] []
    s.ms = .running ∧ memRead s s.cellAddress = .ok 0#8 ∧ (fetchAt s.src s.ip).map ofCodePoint = some .loopStart ∧
    ∀ q, ¬ matchingBracket s.src s.ip q := by
  refine ⟨rfl, rfl, by decide, ?_⟩
  rintro q ⟨h0, -, h, h1, -⟩
  change 0 < q at h0
  by_cases hq : q < 3
  · interval_cases q <;> revert h h1 <;> decide
  · have hn : fetchAt (State.fresh 1 [0x5B#21, 0x5B#21, 0x5D#21] []).src q = none := List.getElem?_eq_none (Nat.le_of_not_lt hq)
    rw [hn] at h; cases h

theorem witness_ByteReadInContractPrintsBack :
    demo.tape.wf ∧ demo.ms = .running ∧ inputInContract demo.answers ∧ demo.inputPos < demo.answers.length ∧
    ∃ t, exec .read demo = .next t := by
  refine ⟨by decide, rfl, fun b hb => ?_, by decide, _, rfl⟩
  simp [demo] at hb; subst hb; decide

theorem witness_ReferenceCollaboratorsMeetTheirContracts :
    (0x7F#21).toNat ≤ 0x7F ∧ 0x7F < (0x80#21).toNat ∧ (engineStep .print (demoCell 0x7F#8)).outByte = some 0x7F#8 := by decide

theorem witness_BinaryCodesTellThingsApart :
    symbolTag (.other 0#21) = symbolTag (.other 1#21) ∧ machineStateCode (.skipping 2) = machineStateCode (.skipping 2) ∧
    faultCode (.ptrOutOfBounds 0) = faultCode (.ptrOutOfBounds 7) ∧ Fault.SameKind (.ptrOutOfBounds 0) (.ptrOutOfBounds 7) :=
  ⟨by decide, by decide, by decide, .ptrOutOfBounds 0 7⟩

end Sys2Proof.Machine.Tests
end

