-- ==== Sys2Proof/Proofs/FreshMachine.lean ====
section
/-! The reset values of a fresh machine (10_state.md R35). -/

namespace Sys2Proof.Machine

theorem State.reset_eq_fresh : State.reset = State.fresh Config.defaultCapacity [] [] := rfl

/-- R35: "every tape cell is 0". -/
theorem memRead_fresh {cap a : Nat} (src : List CodePoint) (answers : List (Option Byte)) (h : a < cap) :
    memRead (State.fresh cap src answers) a = .ok 0#8 :=
  memRead_eq_ok_iff.2 ⟨h, (Memory.read_nil a).symm⟩

/-- Settles O8: the state after reset is itself a fresh machine, whose empty tape reads 0 at every cell; the other
values are the fields of `State.fresh`. -/
theorem freshMachineHasTheResetValues : Obligations.FreshMachineHasTheResetValues := by
  unfold Obligations.FreshMachineHasTheResetValues
  intro s hs
  obtain ⟨cap, src, answers, rfl⟩ : ∃ cap src answers, s = State.fresh cap src answers := by
    obtain rfl | hfresh := hs
    · exact ⟨_, _, _, State.reset_eq_fresh⟩
    · exact hfresh
  exact ⟨fun a ha => memRead_fresh src answers ha, State.fresh_ms .., State.fresh_dp .., State.fresh_ip ..,
    State.fresh_lrs .., State.fresh_output .., State.fresh_inputPos ..⟩

end Sys2Proof.Machine
end

