-- ==== Sys2Proof/Proofs/LoopStack.lean ====
section
/-! The loop-return stack: push and pop are inverse to each other, and LoopEnd on the empty stack (20_memory.md R68). -/

namespace Sys2Proof.Machine

variable {s t : State}

/-- A pop takes the last entry, and pushing it back gives the state before. -/
theorem push_of_pop_eq_some {v : Nat} (h : s.pop = some (v, t)) : s.lrs = t.lrs ++ [v] ∧ t.push v = s := by
  obtain ⟨rest, hrest, rfl⟩ := pop_eq_some_iff.1 h
  have hpush : ({ s with lrs := rest } : State).push v = { s with lrs := rest ++ [v] } := rfl
  exact ⟨hrest, by rw [hpush, ← hrest]⟩

/-- R181 on the empty stack: the pop fails, and LoopEnd raises its fault in the state as it found it. -/
theorem engineStep_loopEnd_of_lrs_nil (hms : s.ms = .running) (hlrs : s.lrs = []) :
    engineStep .loopEnd s = raise .stackUnderflow s := by
  have hrun : engineStep .loopEnd s = runLoopEnd s := dispatchOn_running hms _ _
  rw [hrun, runLoopEnd, pop_eq_none_iff.2 hlrs]

/-- Settles O13: a push followed by a pop gives the state back, as does a pop followed by a push; on the empty stack the
pop fails, and LoopEnd's fault keeps the state, hence the empty stack. -/
theorem stackIsLastInFirstOut : Obligations.StackIsLastInFirstOut := by
  unfold Obligations.StackIsLastInFirstOut
  refine fun s v => ⟨pop_push s v, State.push_lrs s v, fun hlrs => ⟨pop_eq_none_iff.2 hlrs, fun hms => ?_⟩,
    fun _ _ => push_of_pop_eq_some⟩
  have hstep := engineStep_loopEnd_of_lrs_nil hms hlrs
  exact ⟨by rw [exec_eq_outcomeOf, hstep, outcomeOf_raise], by rw [hstep, raise_state, hlrs]⟩

end Sys2Proof.Machine
end

