-- ==== Sys2Proof/Proofs/Dispatch.lean ====
section
/-! The rows of the dispatch table that execute no instruction: every symbol in Halted, the brackets counted and the others
passed over in Skipping, and Other in Running (40_dispatch.md R112 to R118). -/

namespace Sys2Proof.Machine

variable {s t : State} {i : Instr} {f : Fault} {d : Nat}

/-- A step that succeeds, seen through the host's interface. -/
theorem exec_of_engineStep_succeed (h : engineStep i s = succeed t) : exec i s = .next t := by
  rw [exec_eq_outcomeOf, h, outcomeOf_succeed]

/-- A step that faults, seen through the host's interface. -/
theorem exec_of_engineStep_raise (h : engineStep i s = raise f t) : exec i s = .fault f := by
  rw [exec_eq_outcomeOf, h, outcomeOf_raise]

theorem engineStep_loopStart_skipping (h : s.ms = .skipping d) :
    engineStep .loopStart s = succeed (s.setMs (.skipping (d + 1))).advance :=
  dispatchOn_skipping h _ _

theorem engineStep_loopEnd_skipping (h : s.ms = .skipping d) : engineStep .loopEnd s = countLoopEnd s d :=
  dispatchOn_skipping h _ _

/-- R113's corner case: the skip ends at depth one. -/
theorem countLoopEnd_one (s : State) : countLoopEnd s 1 = succeed (s.setMs .running).advance := rfl

/-- R113's corner case: from depth two on the machine stays skipping. -/
theorem countLoopEnd_of_two_le (s : State) (h : 2 ≤ d) : countLoopEnd s d = succeed (s.setMs (.skipping (d - 1))).advance := by
  have hdeep : d - 1 ≠ 0 := by omega
  rw [countLoopEnd, if_neg hdeep]

theorem engineStep_other_running (c : CodePoint) (h : s.ms = .running) : engineStep (.other c) s = succeed s.advance :=
  dispatchOn_running h _ _

/-- Settles O14: the dispatch looks at the machine state before the symbol, and its Halted row raises the fault in the state
as it stands, with no collaborator call. -/
theorem haltedFaultsOnEverySymbol : Obligations.HaltedFaultsOnEverySymbol := by
  unfold Obligations.HaltedFaultsOnEverySymbol
  intro i s hms
  have hstep : engineStep i s = raise .haltedMachine s := engineStep_halted i hms
  exact ⟨exec_of_engineStep_raise hstep, hstep⟩

/-- Settles O15: the step is the count of one `]`, and the count's two cases are the two clauses. -/
theorem skippedLoopEndIsCounted : Obligations.SkippedLoopEndIsCounted := by
  unfold Obligations.SkippedLoopEndIsCounted
  intro s d hms _
  have hstep := engineStep_loopEnd_skipping hms
  constructor
  · rintro rfl
    exact exec_of_engineStep_succeed (hstep.trans (countLoopEnd_one s))
  · intro hdeep
    exact exec_of_engineStep_succeed (hstep.trans (countLoopEnd_of_two_le s hdeep))

/-- Settles O16: the Skipping row of `[` counts it and tests no cell. -/
theorem skippedLoopStartIsCounted : Obligations.SkippedLoopStartIsCounted := by
  unfold Obligations.SkippedLoopStartIsCounted
  intro s d hms
  exact exec_of_engineStep_succeed (engineStep_loopStart_skipping hms)

/-- Settles O18: every symbol but the brackets and EOF has the one Skipping row that only advances `ip`. -/
theorem skippedSymbolOnlyAdvances : Obligations.SkippedSymbolOnlyAdvances := by
  unfold Obligations.SkippedSymbolOnlyAdvances
  intro i s d hms hStart hEnd hEof
  have hstep : engineStep i s = succeed s.advance := engineStep_passedOver i hms hStart hEnd hEof
  exact ⟨exec_of_engineStep_succeed hstep, hstep⟩

/-- Settles O21: the Running row of Other advances `ip`, whatever the character. -/
theorem otherWhileRunningAdvances : Obligations.OtherWhileRunningAdvances := by
  unfold Obligations.OtherWhileRunningAdvances
  intro s c hms
  exact exec_of_engineStep_succeed (engineStep_other_running c hms)

end Sys2Proof.Machine
end

