-- ==== Sys2Proof/Proofs/Invariant.lean ====
section
/-! The invariant of the reachable states: a fresh machine meets it, each update that a step makes keeps it, hence every step
and every sequence of symbols does (10_state.md R27, R28; 41_pointer.md R142). -/

namespace Sys2Proof.Machine

variable {s t : State} {i : Instr} {o : StepOut}

/-- A fresh machine has an empty tape, stack and log, so only its capacity is in question. -/
theorem State.fresh_inv {cap : Nat} (src : List CodePoint) (answers : List (Option Byte)) (h : 1 ≤ cap) :
    (State.fresh cap src answers).Inv where
  capPos := h
  dpInRange := h
  tapeWf := Memory.wf_nil
  tapeInRange := by simp
  lrsRising := .nil
  lrsBelowIp := by simp
  depthPos := by simp
  outputPrintable := by simp

/-! ### The updates that steps are made of -/

namespace State.Inv

theorem advance (h : s.Inv) : s.advance.Inv :=
  { h with lrsBelowIp := fun e he => Nat.lt_succ_of_lt (h.lrsBelowIp e he) }

theorem setDp {v : Nat} (h : s.Inv) (hv : v < s.cap) : (s.setDp v).Inv := { h with dpInRange := hv }

theorem setMs {m : MState} (h : s.Inv) (hm : ∀ d, m = .skipping d → 1 ≤ d) : (s.setMs m).Inv :=
  { h with depthPos := hm }

theorem setMs_skipping {d : Nat} (h : s.Inv) (hd : 1 ≤ d) : (s.setMs (.skipping d)).Inv :=
  h.setMs fun _ hk => MState.skipping.inj hk ▸ hd

theorem consumeAnswer (h : s.Inv) : s.consumeAnswer.Inv := { h with }

/-- The one address that a step stores at is `dp`, which is inside the tape. -/
theorem setTape_write_dp (h : s.Inv) (v : Byte) : (s.setTape (s.tape.write s.dp v)).Inv :=
  { h with
    tapeWf := Memory.write_wf s.tape s.dp v h.tapeWf
    tapeInRange := by
      intro c hc
      obtain ⟨rfl, -⟩ | hold := Memory.mem_write hc
      · exact h.dpInRange
      · exact h.tapeInRange c hold }

theorem emit {b : Byte} (h : s.Inv) (hb : b.toNat ≤ 0x7F) : (s.emit b).Inv :=
  { h with
    outputPrintable := by
      intro c hc
      obtain hold | hnew := List.mem_append.1 hc
      · exact h.outputPrintable c hold
      · rwa [List.mem_singleton.1 hnew] }

/-- The push alone would break the bound by `ip`: the entry pushed is `ip` itself, and the advance lifts `ip` above it. -/
theorem push_ip_advance (h : s.Inv) : (s.push s.ip).advance.Inv :=
  { h with
    lrsRising := List.pairwise_append.2
      ⟨h.lrsRising, List.pairwise_singleton .., fun e he _ hip => List.mem_singleton.1 hip ▸ h.lrsBelowIp e he⟩
    lrsBelowIp := by
      intro e he
      obtain hold | hnew := List.mem_append.1 he
      · exact Nat.lt_succ_of_lt (h.lrsBelowIp e hold)
      · obtain rfl := List.mem_singleton.1 hnew
        exact Nat.lt_succ_self s.ip }

/-- `ip` may go back to the entry popped, since the entries below it on the rising stack are less. -/
theorem popTo {rest : List Nat} {v : Nat} (h : s.Inv) (hl : s.lrs = rest ++ [v]) :
    State.Inv { s with lrs := rest, ip := v } := by
  obtain ⟨hrest, -, hbelow⟩ := List.pairwise_append.1 (hl ▸ h.lrsRising)
  exact { h with lrsRising := hrest, lrsBelowIp := fun e he => hbelow e he v (List.mem_singleton_self v) }

end State.Inv

/-! ### Steps and sequences of steps -/

/-- Every row of the transition table keeps the invariant, the faulting ones too. -/
theorem StepCase.inv (hc : StepCase s i o) (h : s.Inv) : o.state.Inv := by
  cases hc with
  | halted | skipEof | moveRightFault | moveLeftFault | tapeFault | incrementFault | decrementFault | printFault
  | loopEndFault => exact h
  | passedOver | comment => exact h.advance
  | skipLoopEnd d =>
    refine State.Inv.advance ?_
    split
    · exact h.setMs nofun
    · next hdeep => exact h.setMs_skipping (Nat.one_le_iff_ne_zero.2 hdeep)
  | skipLoopStart d => exact (h.setMs_skipping (Nat.le_add_left 1 d)).advance
  | halt => exact h.setMs nofun
  | moveRight _ hdp => exact (h.setDp hdp).advance
  | moveLeft => exact (h.setDp (Nat.lt_of_le_of_lt (Nat.sub_le s.dp 1) h.dpInRange)).advance
  | increment | decrement => exact (h.setTape_write_dp _).advance
  | print _ _ hb => exact (h.emit hb).advance
  | read b => exact (h.consumeAnswer.setTape_write_dp b).advance
  | readTapeFault | readFault => exact h.consumeAnswer
  | loopEnter => exact h.push_ip_advance
  | loopSkip => exact (h.setMs_skipping (Nat.le_refl 1)).advance
  | loopEnd rest v _ hl => exact h.popTo hl

theorem engineStep_inv (i : Instr) (h : s.Inv) : (engineStep i s).state.Inv := (engineStep_case i s).inv h

/-- A step that goes on is the engine's step of the symbol found at `ip`. -/
theorem engineStep_of_step_eq_next (h : step s = .next t) : (engineStep (decode s.fetchWord) s).state = t := by
  have hout : outcomeOf (engineStep (decode s.fetchWord) s) = .next t := (exec_eq_outcomeOf _ s).symm.trans h
  exact (outcomeOf_eq_next_iff.1 hout).2

/-- What every symbol keeps, whatever the step returns, every sequence of symbols keeps. -/
theorem feedAll_induction (P : State → Prop) (hs : ∀ i s, P s → P (engineStep i s).state) (is : List Instr) (h : P s) :
    P (feedAll is s) := by
  induction is generalizing s with
  | nil => exact h
  | cons i is ih => exact ih (hs i s h)

/-- Settles O43: the step is the engine's step of the symbol at `ip`, and that keeps the invariant. -/
theorem everyStepKeepsTheInvariant : Obligations.EveryStepKeepsTheInvariant := by
  unfold Obligations.EveryStepKeepsTheInvariant
  intro s t hinv hstep
  exact engineStep_of_step_eq_next hstep ▸ engineStep_inv _ hinv

/-- Settles O44: every symbol keeps the invariant, by the cases of a step, and a fresh machine meets it. -/
theorem everySymbolSequenceKeepsTheInvariant : Obligations.EverySymbolSequenceKeepsTheInvariant := by
  unfold Obligations.EverySymbolSequenceKeepsTheInvariant
  refine ⟨fun i s => engineStep_inv i, fun cap src answers is hcap => ?_⟩
  exact feedAll_induction State.Inv (fun i s => engineStep_inv i) is (State.fresh_inv src answers hcap)

/-- Settles O42: the state after reset is a fresh machine of the default capacity. -/
theorem resetMeetsTheInvariant : Obligations.ResetMeetsTheInvariant := by
  unfold Obligations.ResetMeetsTheInvariant
  rw [State.reset_eq_fresh]
  exact State.fresh_inv [] [] (by decide)

end Sys2Proof.Machine
end

