-- ==== Sys2Proof/Proofs/Pointer.lean ====
section
/-! The moves of the data pointer in Running, and their faults at the two ends of the tape (41_pointer.md R140, R141). -/

namespace Sys2Proof.Machine

variable {s : State}

theorem engineStep_moveRight_running (h : s.ms = .running) :
    engineStep .moveRight s =
      if s.dp + 1 < s.cap then succeed (s.setDp (s.dp + 1)).advance else raise (.ptrOutOfBounds s.dp) s :=
  dispatchOn_running h _ _

theorem engineStep_moveLeft_running (h : s.ms = .running) :
    engineStep .moveLeft s =
      if 0 < s.dp then succeed (s.setDp (s.dp - 1)).advance else raise (.ptrOutOfBounds s.dp) s :=
  dispatchOn_running h _ _

/-- Settles O22: the two branches of R140's test are the two clauses. -/
theorem moveRightMovesOrFaults : Obligations.MoveRightMovesOrFaults := by
  unfold Obligations.MoveRightMovesOrFaults
  intro s hms
  have hstep := engineStep_moveRight_running hms
  constructor
  · intro hroom
    rw [if_pos hroom] at hstep
    exact exec_of_engineStep_succeed hstep
  · intro hlast
    rw [if_neg hlast] at hstep
    exact ⟨exec_of_engineStep_raise hstep, by rw [hstep, raise_state]⟩

/-- Settles O23: the two branches of R141's test are the two clauses, and the pointer that the fault carries is 0. -/
theorem moveLeftMovesOrFaults : Obligations.MoveLeftMovesOrFaults := by
  unfold Obligations.MoveLeftMovesOrFaults
  intro s hms
  have hstep := engineStep_moveLeft_running hms
  constructor
  · intro hroom
    rw [if_pos hroom] at hstep
    exact exec_of_engineStep_succeed hstep
  · intro hfirst
    rw [if_neg (by omega), hfirst] at hstep
    exact ⟨exec_of_engineStep_raise hstep, by rw [hstep, raise_state]⟩

end Sys2Proof.Machine
end

