-- ==== Sys2Proof/Proofs/CellArith.lean ====
section
/-! Delta Arithmetic over the integers: which byte it gives, and when it fails (42_cell_arith.md R150). -/

namespace Sys2Proof.Machine

variable {b v : Byte} {delta d : Delta}

theorem Delta.toInt_eq_one_or_eq_neg_one (delta : Delta) : delta.toInt = 1 ∨ delta.toInt = -1 := by
  cases delta with
  | plusOne => exact .inl rfl
  | minusOne => exact .inr rfl

/-- An integer within the byte range is the value of the one byte it makes. -/
theorem ofInt_eq_iff_toNat_eq {z : Int} (hz : 0 ≤ z ∧ z ≤ 255) : BitVec.ofInt 8 z = v ↔ (v.toNat : Int) = z := by
  have hval : ((BitVec.ofInt 8 z).toNat : Int) = z := by rw [BitVec.toNat_ofInt]; omega
  rw [← BitVec.toNat_inj]
  omega

/-- Delta Arithmetic with either delta is one range check of the integer sum. -/
theorem applyDelta_eq_ite (b : Byte) (delta : Delta) :
    applyDelta b delta =
      if 0 ≤ (b.toNat : Int) + delta.toInt ∧ (b.toNat : Int) + delta.toInt ≤ 255 then
        .ok (BitVec.ofInt 8 (b.toNat + delta.toInt))
      else .error delta := rfl

/-- A byte given is the exact sum: every byte is in range, so the range check asks no more than that. -/
theorem applyDelta_eq_ok_iff : applyDelta b delta = .ok v ↔ (v.toNat : Int) = b.toNat + delta.toInt := by
  have hv := v.isLt
  rw [applyDelta_eq_ite]
  split
  · next hin => rw [Except.ok.injEq, ofInt_eq_iff_toNat_eq hin]
  · next hout => exact iff_of_false nofun fun hsum => hout (by omega)

/-- A failure reports the delta attempted, and means that the sum leaves the byte range on one side. -/
theorem applyDelta_eq_error_iff :
    applyDelta b delta = .error d ↔
      d = delta ∧ ((b.toNat : Int) + delta.toInt < 0 ∨ 255 < (b.toNat : Int) + delta.toInt) := by
  rw [applyDelta_eq_ite]
  split
  · next hin => exact iff_of_false nofun fun ⟨_, hout⟩ => by omega
  · next hout =>
    rw [Except.error.injEq, and_iff_left (by omega)]
    exact eq_comm

/-- Settles O24: the two answers of Delta Arithmetic's range check, each said exactly. -/
theorem deltaArithmeticIsExactOrFails : Obligations.DeltaArithmeticIsExactOrFails := by
  unfold Obligations.DeltaArithmeticIsExactOrFails
  intro b delta
  exact ⟨fun _ => applyDelta_eq_ok_iff, fun _ => applyDelta_eq_error_iff, delta.toInt_eq_one_or_eq_neg_one⟩

end Sys2Proof.Machine
end

