-- ==== Sys2Proof/Proofs/Read.lean ====
section
/-! Read in Running: the store of the byte answered, and the fault on no byte (43_io.md R163). -/

namespace Sys2Proof.Machine

variable {s t : State} {a : Nat} {v b : Byte}

/-- R52: a tape written at one address, under the same capacity, reads differently at that address alone. -/
theorem State.storedOnly_of_tape_eq_write (hwf : s.tape.wf) (ha : a < s.cap) (hcap : t.cap = s.cap)
    (htape : t.tape = s.tape.write a v) : s.storedOnly t a v := by
  constructor
  · have hread : v = t.tape.read a := by rw [htape, Memory.read_write_same s.tape a v hwf]
    exact memRead_eq_ok_iff.2 ⟨hcap ▸ ha, hread⟩
  · intro c hne
    rw [memRead, memRead, hcap, htape, Memory.read_write_ne s.tape a c v hne]

theorem engineStep_read_of_nextAnswer_eq_some (hms : s.ms = .running) (hdp : s.dp < s.cap) (hr : s.nextAnswer = some b) :
    engineStep .read s =
      { succeed (s.consumeAnswer.setTape (s.tape.write s.dp b)).advance with answer := some (some b) } := by
  have hrun : engineStep .read s = runRead s := dispatchOn_running hms _ _
  have hstore : storeCell s.consumeAnswer b = succeed (s.consumeAnswer.setTape (s.tape.write s.dp b)).advance :=
    (storeCell_eq s.consumeAnswer b).trans (if_pos hdp)
  simp only [hrun, runRead, hr, hstore]

theorem engineStep_read_of_nextAnswer_eq_none (hms : s.ms = .running) (hr : s.nextAnswer = none) :
    engineStep .read s = { raise .invalidChar s.consumeAnswer with answer := some none } := by
  have hrun : engineStep .read s = runRead s := dispatchOn_running hms _ _
  simp only [hrun, runRead, hr]

/-- Settles O28: a byte answered is written at `dp` of the tape and the step goes on; no byte is a fault in the state that
has only consumed the answer. -/
theorem readStoresTheAnswerOrFaults : Obligations.ReadStoresTheAnswerOrFaults := by
  unfold Obligations.ReadStoresTheAnswerOrFaults
  intro s hms hwf hdp
  constructor
  · intro b hr
    have hstep := engineStep_read_of_nextAnswer_eq_some hms hdp hr
    have hnext : exec .read s = .next (s.consumeAnswer.setTape (s.tape.write s.dp b)).advance := by
      rw [exec_eq_outcomeOf, hstep]
      exact outcomeOf_eq_next_iff.2 ⟨rfl, rfl⟩
    exact ⟨_, hnext, State.storedOnly_of_tape_eq_write hwf hdp rfl rfl, rfl, rfl, rfl, rfl, rfl, rfl, rfl, rfl, rfl⟩
  · intro hr
    have hstep := engineStep_read_of_nextAnswer_eq_none hms hr
    have hfault : exec .read s = .fault .invalidChar := by
      rw [exec_eq_outcomeOf, hstep]
      exact outcomeOf_eq_fault_iff.2 rfl
    exact ⟨hfault, congrArg StepOut.state hstep⟩

end Sys2Proof.Machine
end

