-- ==== Sys2Proof/Proofs/Loop.lean ====
section
/-! The brackets in Running: LoopStart's test of the cell, and LoopEnd's unconditional jump (44_loop.md R180, R181). -/

namespace Sys2Proof.Machine

variable {s : State} {b : Byte} {rest : List Nat} {v : Nat}

/-- R180: the byte that the cell read gives is tested, and either outcome goes on with an advance. -/
theorem engineStep_loopStart_running (hms : s.ms = .running) (hread : memRead s s.cellAddress = .ok b) :
    engineStep .loopStart s = succeed (if cellNonzero b then s.push s.ip else s.setMs (.skipping 1)).advance := by
  have hrun : engineStep .loopStart s = runLoopStart s := dispatchOn_running hms _ _
  rw [hrun, runLoopStart, withCell, hread]

/-- R181: LoopEnd takes the last entry off the stack and puts it in `ip`; the tape is not looked at. -/
theorem engineStep_loopEnd_of_lrs_eq_append (hms : s.ms = .running) (hlrs : s.lrs = rest ++ [v]) :
    engineStep .loopEnd s = succeed { s with lrs := rest, ip := v } := by
  have hrun : engineStep .loopEnd s = runLoopEnd s := dispatchOn_running hms _ _
  have hpop : s.pop = some (v, { s with lrs := rest }) := pop_eq_some_iff.2 ⟨rest, hlrs, rfl⟩
  simp only [hrun, runLoopEnd, hpop, State.setIp]

/-- The entry that LoopEnd jumps to lies before `ip`, as every entry of the stack does. -/
theorem State.Inv.top_lt_ip (h : s.Inv) (hlrs : s.lrs = rest ++ [v]) : v < s.ip :=
  h.lrsBelowIp v (hlrs ▸ List.mem_append_right rest (List.mem_singleton_self v))

/-- Settles O30: the two branches of the loop test are the two clauses. -/
theorem loopStartEntersOrSkips : Obligations.LoopStartEntersOrSkips := by
  unfold Obligations.LoopStartEntersOrSkips
  intro s b hms hread
  have hstep := engineStep_loopStart_running hms hread
  constructor
  · intro hne
    rw [if_pos ((cellNonzero_eq_true_iff b).2 hne)] at hstep
    exact exec_of_engineStep_succeed hstep
  · intro hzero
    rw [if_neg fun htest => (cellNonzero_eq_true_iff b).1 htest hzero] at hstep
    exact exec_of_engineStep_succeed hstep

/-- Settles O31: LoopEnd does what the pop does, so the stack with a last entry and the empty stack are the two clauses;
the jump goes backward since the invariant bounds the stack's entries by `ip`. -/
theorem loopEndPopsAndJumpsOrFaults : Obligations.LoopEndPopsAndJumpsOrFaults := by
  unfold Obligations.LoopEndPopsAndJumpsOrFaults
  intro s hms
  constructor
  · intro rest v hlrs
    exact ⟨exec_of_engineStep_succeed (engineStep_loopEnd_of_lrs_eq_append hms hlrs), fun hinv => hinv.top_lt_ip hlrs⟩
  · intro hlrs
    have hstep := engineStep_loopEnd_of_lrs_nil hms hlrs
    exact ⟨exec_of_engineStep_raise hstep, by rw [hstep, raise_state]⟩

end Sys2Proof.Machine
end

