-- ==== Sys2Proof/Proofs/Decoder.lean ====
section
/-! The decoder and the encoder are inverse to each other on words with a character present, and the decoder is the match
and mask table of 30_encoding.md R87. -/

namespace Sys2Proof

variable {w : FetchWord} {c : CodePoint} {i : Instr}

theorem decode_of_presentChar_eq_some (h : presentChar w = some c) : decode w = ofCodePoint c := by simp only [decode, h]

theorem decode_of_presentChar_eq_none (h : presentChar w = none) : decode w = .eof := by simp only [decode, h]

theorem presentChar_eq_some_iff : presentChar w = some c ↔ w.getLsbD 21 = true ∧ w.setWidth 21 = c := by
  unfold presentChar
  split <;> simp_all

/-- The character of a word's symbol is the word's own, whether there is one or not. -/
theorem charOf_decode (w : FetchWord) : charOf (decode w) = presentChar w := by
  cases h : presentChar w with
  | none => rw [decode_of_presentChar_eq_none h]; rfl
  | some c => rw [decode_of_presentChar_eq_some h, charOf_ofCodePoint]

theorem encode_decode (w : FetchWord) : encode (decode w) = packFetch (presentChar w) := by rw [encode, charOf_decode]

theorem encode_decode_of_present (h : w.getLsbD 21 = true) : encode (decode w) = w :=
  (encode_decode w).trans (packFetch_presentChar w h)

theorem decode_wellFormed (w : FetchWord) : (decode w).wellFormed = true := by
  cases h : presentChar w with
  | none => rw [decode_of_presentChar_eq_none h]; rfl
  | some c => rw [decode_of_presentChar_eq_some h]; exact ofCodePoint_wellFormed c

/-- A well-formed symbol that is written with a character is that character's symbol. -/
theorem ofCodePoint_of_charOf_eq_some (hi : i.wellFormed = true) (hc : charOf i = some c) : ofCodePoint c = i := by
  cases i with
  | eof => cases hc
  | other d =>
    obtain rfl : d = c := Option.some.inj hc
    exact ofCodePoint_of_not_instruction (of_decide_eq_true hi)
  | moveRight | moveLeft | increment | decrement | print | read | loopStart | loopEnd =>
    obtain rfl := Option.some.inj hc
    rfl

theorem eq_eof_of_charOf_eq_none (h : charOf i = none) : i = .eof := by
  cases i with
  | eof => rfl
  | moveRight | moveLeft | increment | decrement | print | read | loopStart | loopEnd | other => cases h

theorem decode_encode (hi : i.wellFormed = true) : decode (encode i) = i := by
  have hchar : presentChar (encode i) = charOf i := presentChar_packFetch (charOf i)
  cases hc : charOf i with
  | none => rw [decode_of_presentChar_eq_none (hchar.trans hc), eq_eof_of_charOf_eq_none hc]
  | some c => rw [decode_of_presentChar_eq_some (hchar.trans hc), ofCodePoint_of_charOf_eq_some hi hc]

/-- A row of the table with every bit in its mask: one word, and no other, has that symbol. -/
theorem decode_eq_iff_eq_encode (hi : i.wellFormed = true) (hc : charOf i = some c) : decode w = i ↔ w = encode i := by
  constructor
  · rintro rfl
    rw [charOf_decode] at hc
    exact (encode_decode_of_present (presentChar_eq_some_iff.1 hc).1).symm
  · rintro rfl
    exact decode_encode hi

/-- The mask of the eight rows covers the whole word. -/
theorem and_fullMask (w : FetchWord) : w &&& 0x3FFFFF#22 = w := BitVec.and_allOnes

/-- The mask of the other two rows is the presence bit alone. -/
theorem and_presenceMask (w : FetchWord) : w &&& 0x200000#22 = if w.getLsbD 21 then 0x200000#22 else 0#22 :=
  BitVec.and_twoPow w 21

theorem fullMask_row_iff (hi : i.wellFormed = true) (hc : charOf i = some c) :
    w &&& 0x3FFFFF#22 = encode i ↔ decode w = i := by
  rw [and_fullMask, decode_eq_iff_eq_encode hi hc]

theorem eof_row_iff : w &&& 0x200000#22 = 0x000000#22 ↔ decode w = .eof := by
  rw [and_presenceMask]
  cases hv : w.getLsbD 21 with
  | false => simpa using decode_of_presentChar_eq_none (presentChar_of_absent w hv)
  | true =>
    have hchar : charOf (decode w) = some (w.setWidth 21) := (charOf_decode w).trans (presentChar_eq_some_iff.2 ⟨hv, rfl⟩)
    refine iff_of_false (by decide) fun he => ?_
    rw [he] at hchar
    cases hchar

theorem other_row_iff :
    decode w = .other c ↔ w &&& 0x200000#22 = 0x200000#22 ∧ w.setWidth 21 = c ∧ c ∉ instructionCodePoints := by
  have hmask : w &&& 0x200000#22 = 0x200000#22 ↔ w.getLsbD 21 = true := by
    rw [and_presenceMask]; cases w.getLsbD 21 <;> decide
  rw [hmask, ← and_assoc, ← presentChar_eq_some_iff]
  constructor
  · intro h
    have hchar := charOf_decode w
    have hwf := decode_wellFormed w
    rw [h] at hchar hwf
    exact ⟨hchar.symm, of_decide_eq_true hwf⟩
  · rintro ⟨hchar, hc⟩
    exact (decode_of_presentChar_eq_some hchar).trans (ofCodePoint_of_not_instruction hc)

/-- Settles O1: the word of a symbol holds the symbol's character, and a well-formed symbol is what its character, or the
absence of one, decodes to. -/
theorem decodeOfEncodeIsIdentity : Obligations.DecodeOfEncodeIsIdentity := by
  unfold Obligations.DecodeOfEncodeIsIdentity
  exact fun _ hi => decode_encode hi

/-- Settles O2: encoding a decoded word packs the character that the word presents. -/
theorem encodeOfDecodeIsTheWord : Obligations.EncodeOfDecodeIsTheWord := by
  unfold Obligations.EncodeOfDecodeIsTheWord
  refine fun w => ⟨decode_wellFormed w, encode_decode_of_present, fun hv => ?_⟩
  have hchar : presentChar w = none := presentChar_of_absent w hv
  exact ⟨decode_of_presentChar_eq_none hchar, by rw [encode_decode, hchar]; rfl⟩

/-- Settles O3: the mask of the eight rows leaves the word as it is, and the mask of the other two leaves its presence bit. -/
theorem decoderIsTheMatchAndMaskTable : Obligations.DecoderIsTheMatchAndMaskTable := by
  unfold Obligations.DecoderIsTheMatchAndMaskTable
  intro w
  exact ⟨fullMask_row_iff (i := .moveRight) rfl rfl, fullMask_row_iff (i := .moveLeft) rfl rfl,
    fullMask_row_iff (i := .increment) rfl rfl, fullMask_row_iff (i := .decrement) rfl rfl,
    fullMask_row_iff (i := .print) rfl rfl, fullMask_row_iff (i := .read) rfl rfl,
    fullMask_row_iff (i := .loopStart) rfl rfl, fullMask_row_iff (i := .loopEnd) rfl rfl,
    eof_row_iff, fun _ => other_row_iff⟩

/-- Settles O4: fourteen words, each evaluated. -/
theorem decoderReadsTheTestVectors : Obligations.DecoderReadsTheTestVectors := by
  unfold Obligations.DecoderReadsTheTestVectors
  decide

end Sys2Proof
end

