-- ==== Sys2Proof/Proofs/Fetch.lean ====
section
/-! What a step fetches and runs: the symbol at `ip`, be it of the source as it stands or of a word placed there
(40_dispatch.md R124; 20_memory.md R61). -/

namespace Sys2Proof.Machine

variable {s : State} {src : List CodePoint} {c : CodePoint} {i : Instr} {a k : Nat}

theorem ofCodePoint_ne_eof (c : CodePoint) : ofCodePoint c ≠ .eof := fun he => by
  have hchar := charOf_ofCodePoint c
  rw [he] at hchar
  cases hchar

theorem decode_packFetch_some (c : CodePoint) : decode (packFetch (some c)) = ofCodePoint c :=
  decode_of_presentChar_eq_some (presentChar_packFetch _)

/-- The encoder's choice of bits for an absent character does not matter to the decoder. -/
theorem decode_packFetch_presentChar (w : FetchWord) : decode (packFetch (presentChar w)) = decode w := by
  simp only [decode, presentChar_packFetch]

theorem decode_fetchWord_of_fetchAt (h : fetchAt s.src s.ip = some c) : decode s.fetchWord = ofCodePoint c := by
  rw [State.fetchWord, State.ipOut_eq, h, decode_packFetch_some]

/-- The symbol a step runs, unless it is EOF, is the symbol of the source character at `ip`. -/
theorem fetchAt_ip_eq_some_iff :
    (fetchAt s.src s.ip).map ofCodePoint = some i ↔ decode s.fetchWord = i ∧ i ≠ .eof := by
  cases h : fetchAt s.src s.ip with
  | none =>
    have heof : decode s.fetchWord = .eof := (decode_fetchWord_eq_eof_iff s).2 (List.getElem?_eq_none_iff.1 h)
    rw [heof]
    exact iff_of_false nofun fun ⟨hi, hne⟩ => hne hi.symm
  | some c =>
    rw [decode_fetchWord_of_fetchAt h, Option.map_some, Option.some.injEq, iff_self_and]
    rintro rfl
    exact ofCodePoint_ne_eof c

/-- The character placed, or the end of the source placed, is what a fetch at that index finds. -/
theorem fetchAt_placeAt_same (src : List CodePoint) (a : Nat) (o : Option CodePoint) : fetchAt (placeAt src a o) a = o := by
  cases o with
  | none => simp [fetchAt, placeAt]
  | some c =>
    have hlen : (src.take a ++ List.replicate (a - src.length) 0#21).length = a := by simp; omega
    rw [fetchAt, placeAt, List.getElem?_append_right hlen.le, hlen, Nat.sub_self, List.getElem?_cons_zero]

theorem getElem?_placeAt_of_lt (o : Option CodePoint) (ha : k < a) (hk : k < src.length) :
    (placeAt src a o)[k]? = src[k]? := by
  have htake : k < (src.take a).length := by rw [List.length_take]; omega
  cases o with
  | none => rw [placeAt, List.getElem?_take_of_lt ha]
  | some c => rw [placeAt, List.append_assoc, List.getElem?_append_left htake, List.getElem?_take_of_lt ha]

theorem decode_fetchWord_withFetchWord (s : State) (nbits w : Nat) :
    decode (s.withFetchWord nbits w).fetchWord = decode (BitVec.ofNat 22 w) := by
  have hfetch : (s.withFetchWord nbits w).fetchWord = packFetch (presentChar (BitVec.ofNat 22 w)) :=
    congrArg packFetch (fetchAt_placeAt_same s.src s.ip _)
  rw [hfetch, decode_packFetch_presentChar]

theorem decodeTableWord_of_lt {nbits w : Nat} (h : w < 2 ^ 22) :
    decodeTableWord nbits w = some (decode (BitVec.ofNat 22 w)) := if_pos h

/-- Settles O5: the fetch word holds the character at `ip`, and none from the end of the source on. -/
theorem stepRunsTheSymbolAtIp : Obligations.StepRunsTheSymbolAtIp := by
  unfold Obligations.StepRunsTheSymbolAtIp
  refine fun s => ⟨fun i hi _ => ?_, fun c hc => ?_, fun hend => ?_⟩
  · rw [step, hi]
  · rw [step, decode_fetchWord_of_fetchAt hc]
  · rw [step, (decode_fetchWord_eq_eof_iff s).2 hend]

/-- Settles O6: a fetch at the place finds the character placed, and below it the source is as before. -/
theorem placedWordIsRunByTheNextStep : Obligations.PlacedWordIsRunByTheNextStep := by
  unfold Obligations.PlacedWordIsRunByTheNextStep
  refine fun s nbits w hw => ⟨⟨_, decodeTableWord_of_lt hw, ?_⟩, fun k hip hlen => getElem?_placeAt_of_lt _ hip hlen,
    ⟨rfl, rfl, rfl, rfl, rfl⟩, ⟨rfl, rfl⟩, rfl, rfl⟩
  rw [step, decode_fetchWord_withFetchWord]

/-- Settles O7: what the host sees of a step is the engine step's state or its fault, as its result says. -/
theorem execIsTheEngineStepSeenByTheHost : Obligations.ExecIsTheEngineStepSeenByTheHost := by
  unfold Obligations.ExecIsTheEngineStepSeenByTheHost
  intro i s
  rw [exec_eq_outcomeOf]
  cases hres : (engineStep i s).result with
  | ok => exact .inl ⟨rfl, outcomeOf_eq_next_iff.2 ⟨hres, rfl⟩⟩
  | fault f => exact .inr ⟨f, rfl, outcomeOf_eq_fault_iff.2 hres⟩

end Sys2Proof.Machine
end

