-- ==== Sys2Proof/Proofs/Tape.lean ====
section
/-! The tape's accesses in range and out of it, and the machines that are made or reset (20_memory.md R51 to R53;
70_reset_and_hazards.md R240). -/

namespace Sys2Proof.Machine

variable {s : State} {a : Nat} {v : Byte}

theorem memRead_of_lt (h : a < s.cap) : memRead s a = .ok (s.tape.read a) := if_pos h

theorem memWrite_of_lt (v : Byte) (h : a < s.cap) : memWrite s a v = .ok (s.setTape (s.tape.write a v)) := if_pos h

theorem memRead_of_le (h : s.cap ≤ a) : memRead s a = .error (.ptrOutOfBounds a) := memRead_eq_error_iff.2 ⟨h, rfl⟩

theorem memWrite_of_le (v : Byte) (h : s.cap ≤ a) : memWrite s a v = .error (.ptrOutOfBounds a) :=
  memWrite_eq_error_iff.2 ⟨h, rfl⟩

/-- The canonical form holds nothing but the cells, so a write of the byte that is there gives the same list. -/
theorem Memory.write_read_self (m : Memory) (a : Nat) (h : m.wf) : m.write a (m.read a) = m := by
  refine Memory.ext_of_read _ _ (Memory.write_wf m a _ h) h fun b => ?_
  by_cases hb : b = a
  · rw [hb, Memory.read_write_same m a _ h]
  · exact Memory.read_write_ne m a b _ hb

/-- Settles O10: the write puts the byte in the tape at its address, in the canonical form, and touches no other field. -/
theorem tapeWriteStoresOneCell : Obligations.TapeWriteStoresOneCell := by
  unfold Obligations.TapeWriteStoresOneCell
  intro s a v ha hwf
  exact ⟨⟨_, memRead_of_lt ha⟩, _, memWrite_of_lt v ha, State.storedOnly_of_tape_eq_write hwf ha rfl rfl,
    Memory.write_wf s.tape a v hwf, rfl, rfl, rfl, rfl, ⟨rfl, rfl⟩, rfl, rfl, rfl⟩

/-- Settles O11: the tape after the write is the tape before, entry for entry. -/
theorem rewritingACellLeavesTheTapeEqual : Obligations.RewritingACellLeavesTheTapeEqual := by
  unfold Obligations.RewritingACellLeavesTheTapeEqual
  intro s t a b hwf hread hwrite
  obtain ⟨-, rfl⟩ := memRead_eq_ok_iff.1 hread
  obtain ⟨-, rfl⟩ := memWrite_eq_ok_iff.1 hwrite
  rw [Memory.write_read_self s.tape a hwf]
  rfl

/-- Settles O12: both accesses make the same test against the capacity, and under the invariant `dp` passes it. -/
theorem tapeAccessFailsFromTheCapacityOn : Obligations.TapeAccessFailsFromTheCapacityOn := by
  unfold Obligations.TapeAccessFailsFromTheCapacityOn
  exact fun s a v => ⟨fun hout => ⟨memRead_of_le hout, memWrite_of_le v hout⟩,
    fun hinv => ⟨_, _, memRead_of_lt hinv.dpInRange, memWrite_of_lt v hinv.dpInRange⟩⟩

theorem State.resetEvent_eq_fresh (s : State) : s.resetEvent = State.fresh s.cap s.src s.answers := rfl

/-- Settles O9: the reset event makes the fresh machine of the state's own parameters, and a fresh machine of capacity at
least 1 meets the invariant. -/
theorem resetMakesAFreshEngine : Obligations.ResetMakesAFreshEngine := by
  unfold Obligations.ResetMakesAFreshEngine
  constructor
  · intro cap src answers
    refine ⟨fun hzero => if_pos hzero, fun hpos => ⟨if_neg (by omega), State.fresh_inv src answers hpos⟩⟩
  · intro s
    rw [State.resetEvent_eq_fresh]
    exact ⟨rfl, ⟨rfl, rfl, rfl⟩, fun a ha => memRead_fresh s.src s.answers ha, rfl, rfl, rfl, rfl, rfl, rfl,
      fun hcap => State.fresh_inv s.src s.answers hcap⟩

end Sys2Proof.Machine
end

