-- ==== Sys2Proof/Proofs/DataInstr.lean ====
section
/-! The instructions on the selected cell in Running, and EOF: Increment and Decrement, Print, Read's answers, the order in
which a tape fault comes (42_cell_arith.md R151, R152; 43_io.md R160 to R165; 60_exceptions.md R210). -/

namespace Sys2Proof.Machine

variable {s t : State} {i : Instr} {b v : Byte} {delta d : Delta}

/-! ### Each instruction's row in Running -/

theorem engineStep_increment_running (h : s.ms = .running) : engineStep .increment s = runDelta .plusOne s :=
  dispatchOn_running h _ _

theorem engineStep_decrement_running (h : s.ms = .running) : engineStep .decrement s = runDelta .minusOne s :=
  dispatchOn_running h _ _

theorem engineStep_print_running (h : s.ms = .running) : engineStep .print s = runPrint s := dispatchOn_running h _ _

theorem engineStep_read_running (h : s.ms = .running) : engineStep .read s = runRead s := dispatchOn_running h _ _

theorem engineStep_eof_running (h : s.ms = .running) : engineStep .eof s = succeed (s.setMs .halted) :=
  dispatchOn_running h _ _

theorem engineStep_eof_skipping {d : Nat} (h : s.ms = .skipping d) :
    engineStep .eof s = raise (.mismatchedBrackets s.ip d) s :=
  dispatchOn_skipping h _ _

/-- Settles O17: the Skipping row of EOF raises its fault in the state as it stands. -/
theorem eofWhileSkippingFaults : Obligations.EofWhileSkippingFaults := by
  unfold Obligations.EofWhileSkippingFaults
  intro s d hms
  have hstep := engineStep_eof_skipping hms
  exact ⟨exec_of_engineStep_raise hstep, by rw [hstep, raise_state]⟩

/-- Settles O20: the Running row of EOF sets `ms` and nothing else. -/
theorem eofWhileRunningHalts : Obligations.EofWhileRunningHalts := by
  unfold Obligations.EofWhileRunningHalts
  exact fun s hms => exec_of_engineStep_succeed (engineStep_eof_running hms)

/-! ### The cell operand -/

theorem withCell_of_memRead (k : Byte → StepOut) (h : memRead s s.cellAddress = .ok b) : withCell s k = k b := by
  rw [withCell, h]

theorem withCell_of_dp_out (k : Byte → StepOut) (h : s.cap ≤ s.dp) : withCell s k = raise (.ptrOutOfBounds s.dp) s := by
  rw [withCell_eq, if_neg (Nat.not_lt.2 h)]

theorem storeCell_of_dp_out (v : Byte) (h : s.cap ≤ s.dp) : storeCell s v = raise (.ptrOutOfBounds s.dp) s := by
  rw [storeCell_eq, if_neg (Nat.not_lt.2 h)]

/-! ### Increment and Decrement -/

theorem runDelta_of_applyDelta_eq_ok (hread : memRead s s.cellAddress = .ok b) (h : applyDelta b delta = .ok v) :
    runDelta delta s = succeed (s.setTape (s.tape.write s.dp v)).advance := by
  obtain ⟨hdp, -⟩ := memRead_eq_ok_iff.1 hread
  simp only [runDelta, withCell_of_memRead _ hread, h, storeCell_eq]
  exact if_pos hdp

theorem runDelta_of_applyDelta_eq_error (hread : memRead s s.cellAddress = .ok b) (h : applyDelta b delta = .error d) :
    runDelta delta s = raise (.valOutOfBounds s.dp d) s := by
  simp only [runDelta, withCell_of_memRead _ hread, h]

theorem applyDelta_plusOne_of_ne (h : b ≠ 255#8) : applyDelta b .plusOne = .ok (b + 1#8) :=
  (applyDelta_plusOne b).trans (if_neg fun hb => h (BitVec.eq_of_toNat_eq hb))

theorem applyDelta_minusOne_of_ne (h : b ≠ 0#8) : applyDelta b .minusOne = .ok (b - 1#8) :=
  (applyDelta_minusOne b).trans (if_neg fun hb => h (BitVec.eq_of_toNat_eq hb))

/-- Increment and Decrement where Delta Arithmetic gives a byte: that byte is stored at `dp`, and `ip` moves on. -/
theorem exec_of_applyDelta_eq_ok (hrun : engineStep i s = runDelta delta s) (hwf : s.tape.wf)
    (hread : memRead s s.cellAddress = .ok b) (h : applyDelta b delta = .ok v) :
    ∃ t, exec i s = .next t ∧ s.storedOnly t s.cellAddress v ∧ t.ip = s.ip + 1 ∧ t.dp = s.dp ∧ t.lrs = s.lrs ∧
      t.ms = s.ms ∧ s.sameStreams t ∧ s.sameParams t := by
  obtain ⟨hdp, -⟩ := memRead_eq_ok_iff.1 hread
  exact ⟨_, exec_of_engineStep_succeed (hrun.trans (runDelta_of_applyDelta_eq_ok hread h)),
    State.storedOnly_of_tape_eq_write hwf hdp rfl rfl, rfl, rfl, rfl, rfl, ⟨rfl, rfl⟩, rfl, rfl, rfl⟩

/-- Increment and Decrement where Delta Arithmetic fails: nothing changes. -/
theorem exec_of_applyDelta_eq_error (hrun : engineStep i s = runDelta delta s)
    (hread : memRead s s.cellAddress = .ok b) (h : applyDelta b delta = .error d) :
    exec i s = .fault (.valOutOfBounds s.dp d) ∧ (engineStep i s).state = s := by
  have hstep := hrun.trans (runDelta_of_applyDelta_eq_error hread h)
  exact ⟨exec_of_engineStep_raise hstep, by rw [hstep, raise_state]⟩

/-- Settles O25: the two answers of Delta Arithmetic with +1 are the two clauses. -/
theorem incrementAddsOneOrFaults : Obligations.IncrementAddsOneOrFaults := by
  unfold Obligations.IncrementAddsOneOrFaults
  intro s b hms hwf hread
  have hrun := engineStep_increment_running hms
  constructor
  · intro hne
    exact exec_of_applyDelta_eq_ok hrun hwf hread (applyDelta_plusOne_of_ne hne)
  · rintro rfl
    exact exec_of_applyDelta_eq_error hrun hread (applyDelta_plusOne 255#8)

/-- Settles O26: the two answers of Delta Arithmetic with -1 are the two clauses. -/
theorem decrementSubtractsOneOrFaults : Obligations.DecrementSubtractsOneOrFaults := by
  unfold Obligations.DecrementSubtractsOneOrFaults
  intro s b hms hwf hread
  have hrun := engineStep_decrement_running hms
  constructor
  · intro hne
    exact exec_of_applyDelta_eq_ok hrun hwf hread (applyDelta_minusOne_of_ne hne)
  · rintro rfl
    exact exec_of_applyDelta_eq_error hrun hread (applyDelta_minusOne 0#8)

/-! ### Print -/

theorem engineStep_print_of_printable (hms : s.ms = .running) (hread : memRead s s.cellAddress = .ok b)
    (hb : b.toNat ≤ 0x7F) : engineStep .print s = { succeed (s.emit b).advance with outByte := some b } := by
  rw [engineStep_print_running hms, runPrint, withCell_of_memRead _ hread, if_pos ((printable_eq_true_iff b).2 hb)]

theorem engineStep_print_of_unprintable (hms : s.ms = .running) (hread : memRead s s.cellAddress = .ok b)
    (hb : 0x80 ≤ b.toNat) : engineStep .print s = raise (.unprintableByte b) s := by
  have hno : ¬ printable b = true := fun htest => by
    have := (printable_eq_true_iff b).1 htest
    omega
  rw [engineStep_print_running hms, runPrint, withCell_of_memRead _ hread, if_neg hno]

theorem exec_print_of_printable (hms : s.ms = .running) (hread : memRead s s.cellAddress = .ok b) (hb : b.toNat ≤ 0x7F) :
    exec .print s = .next (s.emit b).advance := by
  rw [exec_eq_outcomeOf, engineStep_print_of_printable hms hread hb]
  exact outcomeOf_eq_next_iff.2 ⟨rfl, rfl⟩

/-- Settles O27: the two outcomes of the printability test are the two clauses. -/
theorem printEmitsTheCellOrFaults : Obligations.PrintEmitsTheCellOrFaults := by
  unfold Obligations.PrintEmitsTheCellOrFaults
  intro s b hms hread
  constructor
  · intro hb
    exact ⟨exec_print_of_printable hms hread hb, by rw [engineStep_print_of_printable hms hread hb]⟩
  · intro hb
    have hstep := engineStep_print_of_unprintable hms hread hb
    exact ⟨exec_of_engineStep_raise hstep, by rw [hstep, raise_state], by rw [hstep, raise_outByte]⟩

/-! ### Read -/

theorem State.nextAnswer_of_lt (h : s.inputPos < s.answers.length) : s.nextAnswer = s.answers[s.inputPos] :=
  inputAnswer_of_lt s.answers s.inputPos h

/-- Storing the byte answered touches neither the script nor the place in it. -/
theorem storeCell_inputPos_answers (s : State) (v : Byte) :
    (storeCell s v).state.inputPos = s.inputPos ∧ (storeCell s v).state.answers = s.answers := by
  rw [storeCell_eq]
  split <;> exact ⟨rfl, rfl⟩

/-- A Read consumes one answer, whatever it is and however the step then ends. -/
theorem runRead_consumes (s : State) :
    (runRead s).answer = some s.nextAnswer ∧ (runRead s).state.inputPos = s.inputPos + 1 ∧
      (runRead s).state.answers = s.answers := by
  refine ⟨rfl, ?_⟩
  cases hr : s.nextAnswer with
  | none => simp [runRead, hr]
  | some b => simpa [runRead, hr] using storeCell_inputPos_answers s.consumeAnswer b

/-- Settles O29: each Read takes the answer at the input position and leaves the position one further on. -/
theorem readsTakeTheAnswersInOrder : Obligations.ReadsTakeTheAnswersInOrder := by
  unfold Obligations.ReadsTakeTheAnswersInOrder
  intro s hms
  obtain ⟨hans, hpos, hscript⟩ := runRead_consumes s
  rw [engineStep_read_running hms]
  refine ⟨hans, hpos, State.nextAnswer_of_lt, fun hlt => ?_⟩
  rw [State.nextAnswer, hscript, hpos, inputAnswer_of_lt s.answers _ hlt]

/-- Settles O54: the Read stores a byte of the script at `dp`, where the Print then finds it, and the contract bounds it by
the printable bytes. -/
theorem byteReadInContractPrintsBack : Obligations.ByteReadInContractPrintsBack := by
  unfold Obligations.ByteReadInContractPrintsBack
  intro s t hwf hms hcontract hlt hexec
  rw [exec_eq_outcomeOf, outcomeOf_eq_next_iff] at hexec
  obtain ⟨hres, rfl⟩ := hexec
  have hcase := engineStep_case .read s
  generalize engineStep .read s = o at hcase hres ⊢
  cases hcase with
  | halted | readTapeFault | readFault => cases hres
  | passedOver _ _ hskip => cases hms.symm.trans hskip
  | read b _ hdp hr =>
    obtain ⟨hread, -⟩ : s.storedOnly (s.consumeAnswer.setTape (s.tape.write s.dp b)).advance s.dp b :=
      State.storedOnly_of_tape_eq_write hwf hdp rfl rfl
    have hmem : some b ∈ s.answers := (State.nextAnswer_of_lt hlt).symm.trans hr ▸ List.getElem_mem hlt
    exact ⟨b, hr, exec_print_of_printable hms hread (hcontract b hmem)⟩
  | tapeFault _ _ _ hi => simp at hi

/-! ### The tape fault -/

theorem engineStep_read_of_dp_out (hms : s.ms = .running) (hdp : s.cap ≤ s.dp) (hr : s.nextAnswer = some b) :
    engineStep .read s = { raise (.ptrOutOfBounds s.dp) s.consumeAnswer with answer := some (some b) } := by
  have hstore : storeCell s.consumeAnswer b = raise (.ptrOutOfBounds s.dp) s.consumeAnswer :=
    storeCell_of_dp_out b hdp
  simp only [engineStep_read_running hms, runRead, hr, hstore]

/-- Settles O32: with `dp` out of range the cell's read is the first thing that fails in four instructions, and in Read the
answer's test comes before the cell's write. -/
theorem tapeFaultComesInTheStatedOrder : Obligations.TapeFaultComesInTheStatedOrder := by
  unfold Obligations.TapeFaultComesInTheStatedOrder
  intro s hms hdp
  refine ⟨?_, ?_, ?_, ?_, fun b hr => ?_, fun hr => ?_⟩
  · exact exec_of_engineStep_raise ((engineStep_increment_running hms).trans (withCell_of_dp_out _ hdp))
  · exact exec_of_engineStep_raise ((engineStep_decrement_running hms).trans (withCell_of_dp_out _ hdp))
  · exact exec_of_engineStep_raise ((engineStep_print_running hms).trans (withCell_of_dp_out _ hdp))
  · have hrun : engineStep .loopStart s = runLoopStart s := dispatchOn_running hms _ _
    exact exec_of_engineStep_raise (hrun.trans (withCell_of_dp_out _ hdp))
  · rw [exec_eq_outcomeOf, engineStep_read_of_dp_out hms hdp hr]
    exact outcomeOf_eq_fault_iff.2 rfl
  · rw [exec_eq_outcomeOf, engineStep_read_of_nextAnswer_eq_none hms hr]
    exact outcomeOf_eq_fault_iff.2 rfl

end Sys2Proof.Machine
end

