-- ==== Sys2Proof/Proofs/Frame.lean ====
section
/-! The whole-machine rules: for each piece of state, the steps that can write it, by the cases of a step (40_dispatch.md
R120, R123; 10_state.md R22 to R30; 43_io.md R167; 60_exceptions.md R200). -/

namespace Sys2Proof.Machine

variable {s t : State} {i : Instr} {o : StepOut} {f : Fault}

theorem State.sameEngine_refl (s : State) : s.sameEngine s := ⟨rfl, rfl, rfl, rfl, rfl⟩

theorem State.sameParams_refl (s : State) : s.sameParams s := ⟨rfl, rfl, rfl⟩

theorem State.consumeAnswer_sameEngine (s : State) : s.sameEngine s.consumeAnswer := ⟨rfl, rfl, rfl, rfl, rfl⟩

theorem State.consumeAnswer_sameParams (s : State) : s.sameParams s.consumeAnswer := ⟨rfl, rfl, rfl⟩

/-- What a faulting step leaves: the state as it was, or, for a Read in Running, that state with one answer consumed. -/
theorem StepCase.state_of_fault (hc : StepCase s i o) (hf : o.result = .fault f) :
    o.outByte = none ∧
      ((i = .read ∧ s.ms = .running ∧ o.state = s.consumeAnswer) ∨ (¬ (i = .read ∧ s.ms = .running) ∧ o.state = s)) := by
  cases hc with
  | readTapeFault _ h | readFault h => exact ⟨rfl, .inl ⟨rfl, h, rfl⟩⟩
  | halted _ h => exact ⟨rfl, .inr ⟨fun hr => (by cases h.symm.trans hr.2), rfl⟩⟩
  | tapeFault _ _ _ hi => exact ⟨rfl, .inr ⟨by rintro ⟨rfl, -⟩; simp at hi, rfl⟩⟩
  | skipEof | moveRightFault | moveLeftFault | incrementFault | decrementFault | printFault | loopEndFault =>
    exact ⟨rfl, .inr ⟨by simp, rfl⟩⟩
  | skipLoopEnd | skipLoopStart | passedOver | halt | comment | moveRight | moveLeft | increment | decrement | print | read
  | loopEnter | loopSkip | loopEnd => cases hf

theorem sameEngine_of_fault (hf : (engineStep i s).result = .fault f) : s.sameEngine (engineStep i s).state := by
  obtain ⟨-, ⟨-, -, ht⟩ | ⟨-, ht⟩⟩ := (engineStep_case i s).state_of_fault hf <;> rw [ht]
  · exact s.consumeAnswer_sameEngine
  · exact s.sameEngine_refl

/-- Settles O33: a faulting step ends in the state it found, but for the answer that a Read in Running has consumed. -/
theorem faultChangesNoEngineState : Obligations.FaultChangesNoEngineState := by
  unfold Obligations.FaultChangesNoEngineState
  intro i s f hf
  obtain ⟨hout, ⟨hi, hms, ht⟩ | ⟨hnot, ht⟩⟩ := (engineStep_case i s).state_of_fault hf <;> rw [ht]
  · exact ⟨s.consumeAnswer_sameEngine, s.consumeAnswer_sameParams, rfl, hout, fun _ => rfl,
      fun hno => absurd ⟨hi, hms⟩ hno⟩
  · exact ⟨s.sameEngine_refl, s.sameParams_refl, rfl, hout, fun hyes => absurd hyes hnot, fun _ => rfl⟩

/-- A tape cell's byte, said by its number, is a read of the tape. -/
theorem memRead_dp_eq_ok_iff_toNat (hdp : s.dp < s.cap) (b : Byte) :
    memRead s s.dp = .ok b ↔ (s.tape.read s.dp).toNat = b.toNat := by
  rw [memRead_eq_ok_iff, BitVec.toNat_inj, eq_comm (a := b)]
  exact and_iff_right hdp

/-- Settles O34: each case of a step, with what it needs of the state, meets the one line of the table that names its fault,
or none where it goes on. -/
theorem faultsAreExactlyTheTable : Obligations.FaultsAreExactlyTheTable := by
  unfold Obligations.FaultsAreExactlyTheTable
  intro i s f hinv
  have hdp := hinv.dpInRange
  have h255 := memRead_dp_eq_ok_iff_toNat hdp 255#8
  have h0 := memRead_dp_eq_ok_iff_toNat hdp 0#8
  have hcase := engineStep_case i s
  generalize engineStep i s = o at hcase
  cases hcase with
  | halted _ h | skipEof _ h | skipLoopEnd _ h | skipLoopStart _ h | halt h | comment _ h | read _ h | readFault h
  | loopEndFault h | loopEnter h | loopSkip h => simp [*, eq_comm]
  | passedOver _ _ h => simp [*]
  | loopEnd _ _ h hl => simp [h, hl]
  | tapeFault _ _ hout | readTapeFault _ _ hout => exact absurd hdp (Nat.not_lt.2 hout)
  | moveRight h hroom =>
    have hne : s.dp ≠ s.cap - 1 := by omega
    simp [h, hne]
  | moveRightFault h hlast =>
    have heq : s.dp = s.cap - 1 := by omega
    simp [h, heq, eq_comm]
  | moveLeft h hroom => simp [h, Nat.ne_of_gt hroom]
  | moveLeftFault h hfirst => simp [h, hfirst, eq_comm]
  | increment h _ hb | incrementFault h _ hb => simp [h, h255, hb, eq_comm]
  | decrement h _ hb | decrementFault h _ hb => simp [h, h0, hb, eq_comm]
  | print h _ hb => simp [h, memRead_of_lt hdp, Nat.not_le.2 (Nat.lt_succ_of_le hb)]
  | printFault h _ hb => simp [h, memRead_of_lt hdp, hb, eq_comm]

/-- R123 and R24: the three ways a successful step leaves `ip`. -/
theorem StepCase.ip_of_ok (hc : StepCase s i o) (hok : o.result = .ok) :
    (s.ms = .running ∧ i = .loopEnd ∧ s.lrs = o.state.lrs ++ [o.state.ip]) ∨
      (s.ms = .running ∧ i = .eof ∧ o.state.ip = s.ip) ∨
      (¬ (s.ms = .running ∧ (i = .loopEnd ∨ i = .eof)) ∧ o.state.ip = s.ip + 1) := by
  cases hc with
  | loopEnd _ _ h hl => exact .inl ⟨h, rfl, hl⟩
  | halt h => exact .inr (.inl ⟨h, rfl, rfl⟩)
  | skipLoopEnd _ h | skipLoopStart _ h | passedOver _ _ h => exact .inr (.inr ⟨by simp [h], rfl⟩)
  | comment | moveRight | moveLeft | increment | decrement | print | read | loopEnter | loopSkip =>
    exact .inr (.inr ⟨by simp, rfl⟩)
  | halted | skipEof | moveRightFault | moveLeftFault | tapeFault | incrementFault | decrementFault | printFault
  | readTapeFault | readFault | loopEndFault => cases hok

/-- Settles O35: LoopEnd's jump and EOF's halt are the two successful steps that do not advance. -/
theorem successfulStepMovesIpByTheRule : Obligations.SuccessfulStepMovesIpByTheRule := by
  unfold Obligations.SuccessfulStepMovesIpByTheRule
  intro i s t hexec
  rw [exec_eq_outcomeOf, outcomeOf_eq_next_iff] at hexec
  obtain ⟨hok, rfl⟩ := hexec
  exact (engineStep_case i s).ip_of_ok hok

/-- R30: the four steps that write `ms`; every other step keeps it. -/
theorem StepCase.ms (hc : StepCase s i o) :
    o.state.ms = s.ms ∨
      (s.ms = .running ∧ i = .loopStart ∧ memRead s s.dp = .ok 0#8 ∧ o.state.ms = .skipping 1) ∨
      (∃ d, s.ms = .skipping d ∧ i = .loopStart ∧ o.state.ms = .skipping (d + 1)) ∨
      (∃ d, s.ms = .skipping d ∧ i = .loopEnd ∧ o.state.ms = if d - 1 = 0 then .running else .skipping (d - 1)) ∨
      (s.ms = .running ∧ i = .eof ∧ o.state.ms = .halted) := by
  cases hc with
  | loopSkip h hdp hb => exact .inr (.inl ⟨h, rfl, memRead_eq_ok_iff.2 ⟨hdp, hb.symm⟩, rfl⟩)
  | skipLoopStart d h => exact .inr (.inr (.inl ⟨d, h, rfl, rfl⟩))
  | skipLoopEnd d h => exact .inr (.inr (.inr (.inl ⟨d, h, rfl, rfl⟩)))
  | halt h => exact .inr (.inr (.inr (.inr ⟨h, rfl, rfl⟩)))
  | halted | skipEof | moveRightFault | moveLeftFault | tapeFault | incrementFault | decrementFault | printFault
  | readTapeFault | readFault | loopEndFault | passedOver | comment | moveRight | moveLeft | increment | decrement | print
  | read | loopEnter | loopEnd => exact .inl rfl

/-- Settles O36: of the cases of a step, four write `ms`. -/
theorem machineStateIsWrittenOnlyByFourSteps : Obligations.MachineStateIsWrittenOnlyByFourSteps := by
  unfold Obligations.MachineStateIsWrittenOnlyByFourSteps
  exact fun i s => (engineStep_case i s).ms

/-- R23: only the moves write `dp`. -/
theorem StepCase.dp (hc : StepCase s i o) :
    o.state.dp = s.dp ∨
      (s.ms = .running ∧ i = .moveRight ∧ s.dp + 1 < s.cap ∧ o.state.dp = s.dp + 1) ∨
      (s.ms = .running ∧ i = .moveLeft ∧ s.dp = o.state.dp + 1) := by
  cases hc with
  | moveRight h hdp => exact .inr (.inl ⟨h, rfl, hdp, rfl⟩)
  | moveLeft h hdp => exact .inr (.inr ⟨h, rfl, (Nat.sub_add_cancel hdp).symm⟩)
  | halted | skipEof | moveRightFault | moveLeftFault | tapeFault | incrementFault | decrementFault | printFault
  | readTapeFault | readFault | loopEndFault | passedOver | comment | skipLoopEnd | skipLoopStart | halt | increment
  | decrement | print | read | loopEnter | loopSkip | loopEnd => exact .inl rfl

/-- R22: only Increment, Decrement and Read write the tape, by a write at `dp`. -/
theorem StepCase.tape (hc : StepCase s i o) :
    o.state.tape = s.tape ∨
      (s.ms = .running ∧ (i = .increment ∨ i = .decrement ∨ i = .read) ∧ ∃ v, o.state.tape = s.tape.write s.dp v) := by
  cases hc with
  | increment h => exact .inr ⟨h, by simp, _, rfl⟩
  | decrement h => exact .inr ⟨h, by simp, _, rfl⟩
  | read b h => exact .inr ⟨h, by simp, b, rfl⟩
  | halted | skipEof | moveRightFault | moveLeftFault | tapeFault | incrementFault | decrementFault | printFault
  | readTapeFault | readFault | loopEndFault | passedOver | comment | skipLoopEnd | skipLoopStart | halt | moveRight
  | moveLeft | print | loopEnter | loopSkip | loopEnd => exact .inl rfl

/-- R62: no step writes the parameters of the run. -/
theorem StepCase.sameParams (hc : StepCase s i o) : s.sameParams o.state := by cases hc <;> exact ⟨rfl, rfl, rfl⟩

theorem engineStep_sameParams (i : Instr) (s : State) : s.sameParams (engineStep i s).state :=
  (engineStep_case i s).sameParams

/-- Settles O37: the steps that write `dp` or the tape, and the tape's write, which leaves every other address alone. -/
theorem pointerAndCellsAreWrittenOnlyByTheirInstructions :
    Obligations.PointerAndCellsAreWrittenOnlyByTheirInstructions := by
  unfold Obligations.PointerAndCellsAreWrittenOnlyByTheirInstructions
  intro i s
  have hparams := engineStep_sameParams i s
  refine ⟨(engineStep_case i s).dp, fun a => ?_, hparams⟩
  obtain htape | ⟨hms, hi, v, htape⟩ := (engineStep_case i s).tape
  · exact .inl (by rw [memRead, memRead, hparams.1, htape])
  · by_cases ha : a = s.dp
    · exact .inr ⟨hms, ha, hi⟩
    · exact .inl (by rw [memRead, memRead, hparams.1, htape, Memory.read_write_ne _ _ _ _ ha])

theorem entersLoop_eq_true_iff :
    entersLoop i s = true ↔ i = .loopStart ∧ s.ms = .running ∧ s.dp < s.cap ∧ s.tape.read s.dp ≠ 0#8 := by
  simp [entersLoop, cellNonzero_eq_true_iff, and_assoc]

theorem leavesLoop_eq_true_iff : leavesLoop i s = true ↔ i = .loopEnd ∧ s.ms = .running ∧ s.lrs ≠ [] := by
  simp [leavesLoop, and_assoc]

/-- R26: a step pushes `ip`, or pops the top into `ip`, or keeps the stack; and which, the two tests on loops say. -/
theorem StepCase.lrs (hc : StepCase s i o) :
    (entersLoop i s = true ∧ leavesLoop i s = false ∧ o.state.lrs = s.lrs ++ [s.ip]) ∨
      (entersLoop i s = false ∧ leavesLoop i s = true ∧ s.lrs = o.state.lrs ++ [o.state.ip]) ∨
      (entersLoop i s = false ∧ leavesLoop i s = false ∧ o.state.lrs = s.lrs) := by
  simp only [Bool.eq_false_iff, ne_eq, entersLoop_eq_true_iff, leavesLoop_eq_true_iff]
  cases hc with
  | loopEnter h hdp hb => exact .inl ⟨⟨rfl, h, hdp, hb⟩, by simp, rfl⟩
  | loopEnd rest t h hl => exact .inr (.inl ⟨by simp, ⟨rfl, h, by simp [hl]⟩, hl⟩)
  | loopSkip _ _ hb => exact .inr (.inr ⟨fun he => he.2.2.2 hb, by simp, rfl⟩)
  | loopEndFault _ hl => exact .inr (.inr ⟨by simp, fun he => he.2.2 hl, rfl⟩)
  | tapeFault i _ hdp hi =>
    refine .inr (.inr ⟨fun he => Nat.not_lt.2 hdp he.2.2.1, ?_, rfl⟩)
    rintro ⟨rfl, -⟩
    simp at hi
  | halted _ h | skipLoopEnd _ h | skipLoopStart _ h | skipEof _ h | passedOver _ _ h =>
    exact .inr (.inr ⟨by simp [h], by simp [h], rfl⟩)
  | halt | comment | moveRight | moveRightFault | moveLeft | moveLeftFault | increment | incrementFault | decrement
  | decrementFault | print | printFault | read | readTapeFault | readFault => exact .inr (.inr ⟨by simp, by simp, rfl⟩)

/-- Settles O38: a step pushes, pops or keeps the stack as the two tests on loops say. -/
theorem stackIsWrittenOnlyByLoopInstructions : Obligations.StackIsWrittenOnlyByLoopInstructions := by
  unfold Obligations.StackIsWrittenOnlyByLoopInstructions
  intro i s
  obtain ⟨he, hl, hlrs⟩ | ⟨he, hl, hlrs⟩ | ⟨he, hl, hlrs⟩ := (engineStep_case i s).lrs
  · simp [he, hl, hlrs]
  · simp [he, hl, ← hlrs]
  · simp [he, hl, hlrs]

/-- R167 and R169: a Read in Running asks for the next answer, a Print in Running of a printable byte hands it over, and
every other step leaves both streams alone. -/
theorem StepCase.calls (hc : StepCase s i o) :
    (i = .read ∧ s.ms = .running ∧ o.answer = some s.nextAnswer ∧ o.outByte = none ∧
        o.state.inputPos = s.inputPos + 1 ∧ o.state.output = s.output) ∨
      (∃ b, (i = .print ∧ s.ms = .running ∧ memRead s s.dp = .ok b ∧ b.toNat ≤ 0x7F) ∧ o.answer = none ∧
        o.outByte = some b ∧ o.state.inputPos = s.inputPos ∧ o.state.output = s.output ++ [b]) ∨
      (¬ (i = .read ∧ s.ms = .running) ∧
        (∀ b, ¬ (i = .print ∧ s.ms = .running ∧ memRead s s.dp = .ok b ∧ b.toNat ≤ 0x7F)) ∧ o.answer = none ∧
        o.outByte = none ∧ o.state.inputPos = s.inputPos ∧ o.state.output = s.output) := by
  cases hc with
  | read _ h | readTapeFault _ h | readFault h => exact .inl ⟨rfl, h, rfl, rfl, rfl, rfl⟩
  | print h hdp hb => exact .inr (.inl ⟨_, ⟨rfl, h, memRead_of_lt hdp, hb⟩, rfl, rfl, rfl, rfl⟩)
  | printFault _ hdp hb =>
    refine .inr (.inr ⟨by simp, ?_, rfl, rfl, rfl, rfl⟩)
    rintro b ⟨-, -, hread, hle⟩
    obtain ⟨-, rfl⟩ := memRead_eq_ok_iff.1 hread
    omega
  | tapeFault i _ hdp hi =>
    refine .inr (.inr ⟨?_, ?_, rfl, rfl, rfl, rfl⟩)
    · rintro ⟨rfl, -⟩
      simp at hi
    · rintro b ⟨-, -, hread, -⟩
      exact Nat.not_lt.2 hdp (memRead_eq_ok_iff.1 hread).1
  | halted _ h | passedOver _ _ h => exact .inr (.inr ⟨by simp [h], by simp [h], rfl, rfl, rfl, rfl⟩)
  | skipLoopEnd | skipLoopStart | skipEof | halt | comment | moveRight | moveRightFault | moveLeft | moveLeftFault
  | increment | incrementFault | decrement | decrementFault | loopEnter | loopSkip | loopEnd | loopEndFault =>
    exact .inr (.inr ⟨by simp, by simp, rfl, rfl, rfl, rfl⟩)

/-- Settles O39: a step makes the one call of Read, the one call of Print, or none, and the two streams follow it. -/
theorem collaboratorsAreCalledOnlyByReadAndPrint : Obligations.CollaboratorsAreCalledOnlyByReadAndPrint := by
  unfold Obligations.CollaboratorsAreCalledOnlyByReadAndPrint
  intro i s
  obtain ⟨rfl, hms, hans, hbyte, hpos, hlog⟩ | ⟨b, ⟨rfl, hms, hread, hb⟩, hans, hbyte, hpos, hlog⟩ |
    ⟨hnoRead, hnoPrint, hans, hbyte, hpos, hlog⟩ := (engineStep_case i s).calls
  · simp [hans, hbyte, hpos, hlog, hms, eq_comm]
  · have hsame : ∀ c, b = c ↔ memRead s s.dp = .ok c ∧ c.toNat ≤ 0x7F := fun c => by
      rw [hread, Except.ok.injEq, iff_self_and]
      rintro rfl
      exact hb
    simp [hans, hbyte, hpos, hlog, hms, hsame]
  · refine ⟨fun r => ?_, fun b => ?_, by simp [hlog, hbyte], by simp [hpos, hans], .inl hans⟩
    · rw [hans]
      exact iff_of_false nofun fun ⟨hi, hms, _⟩ => hnoRead ⟨hi, hms⟩
    · rw [hbyte]
      exact iff_of_false nofun (hnoPrint b)

end Sys2Proof.Machine
end

