-- ==== Sys2Proof/Proofs/Response.lean ====
section
/-! A step's response from two states that agree on the engine: the operations are followed side by side
(00_scope.md R10). -/

namespace Sys2Proof.Machine

variable {s u : State} {o o' : StepOut}

/-- Two steps answer alike: the outputs are the same, and so is the engine after them. -/
def StepOut.respondsAs (o o' : StepOut) : Prop :=
  o.result = o'.result ∧ o.outByte = o'.outByte ∧ o.answer = o'.answer ∧ o.state.sameEngine o'.state

/-! ### Updates of an engine shared by two states -/

namespace State.sameEngine

theorem dp_eq (h : s.sameEngine u) : u.dp = s.dp := h.2.1

theorem ip_eq (h : s.sameEngine u) : u.ip = s.ip := h.2.2.1

theorem lrs_eq (h : s.sameEngine u) : u.lrs = s.lrs := h.2.2.2.1

theorem ms_eq (h : s.sameEngine u) : u.ms = s.ms := h.2.2.2.2

theorem setIp (h : s.sameEngine u) (v : Nat) : (s.setIp v).sameEngine (u.setIp v) := ⟨h.1, h.dp_eq, rfl, h.lrs_eq, h.ms_eq⟩

theorem advance (h : s.sameEngine u) : s.advance.sameEngine u.advance :=
  ⟨h.1, h.dp_eq, congrArg (· + 1) h.ip_eq, h.lrs_eq, h.ms_eq⟩

theorem setDp (h : s.sameEngine u) (v : Nat) : (s.setDp v).sameEngine (u.setDp v) := ⟨h.1, rfl, h.ip_eq, h.lrs_eq, h.ms_eq⟩

theorem setMs (h : s.sameEngine u) (m : MState) : (s.setMs m).sameEngine (u.setMs m) :=
  ⟨h.1, h.dp_eq, h.ip_eq, h.lrs_eq, rfl⟩

theorem setTape (h : s.sameEngine u) (m : Memory) : (s.setTape m).sameEngine (u.setTape m) :=
  ⟨rfl, h.dp_eq, h.ip_eq, h.lrs_eq, h.ms_eq⟩

theorem setLrs (h : s.sameEngine u) (l : List Nat) :
    State.sameEngine { s with lrs := l } { u with lrs := l } := ⟨h.1, h.dp_eq, h.ip_eq, rfl, h.ms_eq⟩

theorem push (h : s.sameEngine u) (v : Nat) : (s.push v).sameEngine (u.push v) :=
  ⟨h.1, h.dp_eq, h.ip_eq, congrArg (· ++ [v]) h.lrs_eq, h.ms_eq⟩

theorem emit (h : s.sameEngine u) (b : Byte) : (s.emit b).sameEngine (u.emit b) := h

theorem consumeAnswer (h : s.sameEngine u) : s.consumeAnswer.sameEngine u.consumeAnswer := h

theorem memRead_eq (h : s.sameEngine u) (hcap : u.cap = s.cap) (a : Nat) : memRead u a = memRead s a := by
  rw [memRead, memRead, hcap, h.1]

end State.sameEngine

/-! ### The parts of a step -/

theorem succeed_respondsAs (h : s.sameEngine u) : (succeed s).respondsAs (succeed u) := ⟨rfl, rfl, rfl, h⟩

theorem raise_respondsAs (f : Fault) (h : s.sameEngine u) : (raise f s).respondsAs (raise f u) := ⟨rfl, rfl, rfl, h⟩

theorem dispatchOn_respondsAs {k k' : Nat → StepOut} (h : s.sameEngine u) (hk : ∀ d, (k d).respondsAs (k' d))
    (ho : o.respondsAs o') : (dispatchOn s k o).respondsAs (dispatchOn u k' o') := by
  cases hms : s.ms with
  | running => rwa [dispatchOn_running hms, dispatchOn_running (h.ms_eq.trans hms)]
  | skipping d => rw [dispatchOn_skipping hms, dispatchOn_skipping (h.ms_eq.trans hms)]; exact hk d
  | halted => rw [dispatchOn_halted hms, dispatchOn_halted (h.ms_eq.trans hms)]; exact raise_respondsAs _ h

theorem passOver_respondsAs (h : s.sameEngine u) (d : Nat) : (passOver s d).respondsAs (passOver u d) :=
  succeed_respondsAs h.advance

theorem withCell_respondsAs {k k' : Byte → StepOut} (h : s.sameEngine u) (hcap : u.cap = s.cap)
    (hk : ∀ b, (k b).respondsAs (k' b)) : (withCell s k).respondsAs (withCell u k') := by
  rw [withCell_eq, withCell_eq, h.dp_eq, hcap, h.1]
  split
  · exact hk _
  · exact raise_respondsAs _ h

theorem storeCell_respondsAs (v : Byte) (h : s.sameEngine u) (hcap : u.cap = s.cap) :
    (storeCell s v).respondsAs (storeCell u v) := by
  rw [storeCell_eq, storeCell_eq, h.dp_eq, hcap, h.1]
  split
  · exact succeed_respondsAs (h.setTape _).advance
  · exact raise_respondsAs _ h

/-! ### The instructions in Running -/

theorem runMoveRight_respondsAs (h : s.sameEngine u) (hcap : u.cap = s.cap) :
    (runMoveRight s).respondsAs (runMoveRight u) := by
  rw [runMoveRight, runMoveRight, h.dp_eq, hcap]
  split
  · exact succeed_respondsAs (h.setDp _).advance
  · exact raise_respondsAs _ h

theorem runMoveLeft_respondsAs (h : s.sameEngine u) : (runMoveLeft s).respondsAs (runMoveLeft u) := by
  rw [runMoveLeft, runMoveLeft, h.dp_eq]
  split
  · exact succeed_respondsAs (h.setDp _).advance
  · exact raise_respondsAs _ h

theorem runDelta_respondsAs (delta : Delta) (h : s.sameEngine u) (hcap : u.cap = s.cap) :
    (runDelta delta s).respondsAs (runDelta delta u) := by
  refine withCell_respondsAs h hcap fun b => ?_
  rw [h.dp_eq]
  cases applyDelta b delta with
  | error d => exact raise_respondsAs _ h
  | ok v => exact storeCell_respondsAs v h hcap

theorem runPrint_respondsAs (h : s.sameEngine u) (hcap : u.cap = s.cap) : (runPrint s).respondsAs (runPrint u) := by
  refine withCell_respondsAs h hcap fun b => ?_
  split
  · exact ⟨rfl, rfl, rfl, (h.emit b).advance⟩
  · exact raise_respondsAs _ h

theorem runRead_respondsAs (h : s.sameEngine u) (hcap : u.cap = s.cap) (hans : u.nextAnswer = s.nextAnswer) :
    (runRead s).respondsAs (runRead u) := by
  cases hr : s.nextAnswer with
  | none =>
    simp only [runRead, hans, hr]
    exact ⟨rfl, rfl, rfl, h.consumeAnswer⟩
  | some b =>
    simp only [runRead, hans, hr]
    obtain ⟨hres, hbyte, -, hstate⟩ := storeCell_respondsAs b h.consumeAnswer hcap
    exact ⟨hres, hbyte, rfl, hstate⟩

theorem runLoopStart_respondsAs (h : s.sameEngine u) (hcap : u.cap = s.cap) :
    (runLoopStart s).respondsAs (runLoopStart u) := by
  refine withCell_respondsAs h hcap fun b => ?_
  rw [h.ip_eq]
  split
  · exact succeed_respondsAs (h.push _).advance
  · exact succeed_respondsAs (h.setMs _).advance

theorem runLoopEnd_respondsAs (h : s.sameEngine u) : (runLoopEnd s).respondsAs (runLoopEnd u) := by
  unfold runLoopEnd State.pop
  rw [h.lrs_eq]
  cases s.lrs.getLast? with
  | none => exact raise_respondsAs _ h
  | some v => exact succeed_respondsAs ((h.setLrs _).setIp v)

/-- Settles O40: the two steps are followed side by side, and each operation looks only at what the two states share. -/
theorem responseDependsOnlyOnEngineSymbolAndAnswer : Obligations.ResponseDependsOnlyOnEngineSymbolAndAnswer := by
  unfold Obligations.ResponseDependsOnlyOnEngineSymbolAndAnswer
  intro i s u h hcap hans
  have hpass := passOver_respondsAs h
  cases i with
  | moveRight => exact dispatchOn_respondsAs h hpass (runMoveRight_respondsAs h hcap)
  | moveLeft => exact dispatchOn_respondsAs h hpass (runMoveLeft_respondsAs h)
  | increment => exact dispatchOn_respondsAs h hpass (runDelta_respondsAs _ h hcap)
  | decrement => exact dispatchOn_respondsAs h hpass (runDelta_respondsAs _ h hcap)
  | print => exact dispatchOn_respondsAs h hpass (runPrint_respondsAs h hcap)
  | read => exact dispatchOn_respondsAs h hpass (runRead_respondsAs h hcap (hans rfl))
  | loopStart =>
    exact dispatchOn_respondsAs h (fun d => succeed_respondsAs (h.setMs _).advance) (runLoopStart_respondsAs h hcap)
  | loopEnd => exact dispatchOn_respondsAs h (fun d => succeed_respondsAs (h.setMs _).advance) (runLoopEnd_respondsAs h)
  | eof =>
    refine dispatchOn_respondsAs h (fun d => ?_) (succeed_respondsAs (h.setMs _))
    rw [skipEof, skipEof, h.ip_eq]
    exact raise_respondsAs _ h
  | other c => exact dispatchOn_respondsAs h hpass (succeed_respondsAs h.advance)

end Sys2Proof.Machine
end

