-- ==== Sys2Proof/Proofs/Sequences.lean ====
section
/-! Sequences of symbols, presented whatever each step returns: a skip is inert, Halted is absorbing, and the stack counts the
open loops (40_dispatch.md R112 to R116; 10_state.md R27). -/

namespace Sys2Proof.Machine

variable {s : State} {i : Instr} {o : StepOut}

/-- Settles O41: a halted machine's step ends in the state it found. -/
theorem haltedIsNeverLeft : Obligations.HaltedIsNeverLeft := by
  unfold Obligations.HaltedIsNeverLeft
  intro is s hms
  induction is with
  | nil => rfl
  | cons i is ih => rw [feedAll, engineStep_halted i hms, raise_state, ih]

/-! ### A skip -/

/-- What a skip leaves alone: the tape, the pointer, the stack and both streams. -/
def State.sameData (s t : State) : Prop := t.tape = s.tape ∧ t.dp = s.dp ∧ t.lrs = s.lrs ∧ s.sameStreams t

theorem State.sameData_refl (s : State) : s.sameData s := ⟨rfl, rfl, rfl, rfl, rfl⟩

theorem State.sameData.trans {t u : State} (h : s.sameData t) (h' : t.sameData u) : s.sameData u := by
  obtain ⟨htape, hdp, hlrs, hpos, hout⟩ := h
  obtain ⟨htape', hdp', hlrs', hpos', hout'⟩ := h'
  exact ⟨htape'.trans htape, hdp'.trans hdp, hlrs'.trans hlrs, hpos'.trans hpos, hout'.trans hout⟩

theorem StepCase.sameData_of_skipping {d : Nat} (hc : StepCase s i o) (hms : s.ms = .skipping d) : s.sameData o.state := by
  cases hc with
  | skipLoopEnd | skipLoopStart | skipEof | passedOver | halted => exact ⟨rfl, rfl, rfl, rfl, rfl⟩
  | halt h | comment _ h | moveRight h | moveRightFault h | moveLeft h | moveLeftFault h | tapeFault _ h | increment h
  | incrementFault h | decrement h | decrementFault h | print h | printFault h | read _ h | readTapeFault _ h | readFault h
  | loopEnter h | loopSkip h | loopEnd _ _ h | loopEndFault h => cases hms.symm.trans h

/-- A sequence of symbols each of which is met in Skipping, the first one included. -/
theorem feedAll_sameData_of_skipping (is : List Instr) (s : State)
    (hskip : ∀ k, k < is.length → ∃ e, (feedAll (is.take k) s).ms = .skipping e) : s.sameData (feedAll is s) := by
  induction is generalizing s with
  | nil => exact s.sameData_refl
  | cons i is ih =>
    obtain ⟨e, hms⟩ := hskip 0 (Nat.succ_pos _)
    have hfirst : s.sameData (engineStep i s).state := (engineStep_case i s).sameData_of_skipping hms
    exact hfirst.trans (ih _ fun k hk => hskip (k + 1) (Nat.succ_lt_succ hk))

/-- Settles O19: no step met in Skipping changes the data or the streams. -/
theorem skippingTouchesNoData : Obligations.SkippingTouchesNoData := by
  unfold Obligations.SkippingTouchesNoData
  exact fun is s _ _ hskip => feedAll_sameData_of_skipping is s hskip

/-! ### The open loops -/

theorem engineStep_lrs_length (i : Instr) (s : State) :
    (engineStep i s).state.lrs.length + (leavesLoop i s).toNat = s.lrs.length + (entersLoop i s).toNat := by
  obtain ⟨he, hl, hlrs⟩ | ⟨he, hl, hlrs⟩ | ⟨he, hl, hlrs⟩ := (engineStep_case i s).lrs <;> simp [he, hl, hlrs]

theorem feedAll_lrs_length (is : List Instr) (s : State) :
    (feedAll is s).lrs.length + loopsLeft is s = s.lrs.length + loopsEntered is s := by
  induction is generalizing s with
  | nil => rfl
  | cons i is ih =>
    have hfirst := engineStep_lrs_length i s
    have hrest := ih (engineStep i s).state
    simp only [feedAll, loopsLeft, loopsEntered]
    omega

theorem State.Inv.lrs_nodup (h : s.Inv) : s.lrs.Nodup := h.lrsRising.imp Nat.ne_of_lt

/-- Distinct indices below `ip` are at most `ip` many. -/
theorem State.Inv.lrs_length_le_ip (h : s.Inv) : s.lrs.length ≤ s.ip := by
  have hsub : s.lrs ⊆ List.range s.ip := fun e he => List.mem_range.2 (h.lrsBelowIp e he)
  exact (List.subperm_of_subset h.lrs_nodup hsub).length_le.trans_eq List.length_range

/-- Settles O45: each step adds to the stack what it enters and takes off what it leaves; the two bounds are the rising
stack of the invariant. -/
theorem stackLengthCountsTheOpenLoops : Obligations.StackLengthCountsTheOpenLoops := by
  unfold Obligations.StackLengthCountsTheOpenLoops
  intro cap src answers is hcap
  have hinv : (feedAll is (State.fresh cap src answers)).Inv :=
    feedAll_induction State.Inv (fun i s => engineStep_inv i) is (State.fresh_inv src answers hcap)
  exact ⟨by simpa using feedAll_lrs_length is (State.fresh cap src answers), hinv.lrs_length_le_ip, hinv.lrs_nodup⟩

end Sys2Proof.Machine
end

