-- ==== Sys2Proof/Proofs/Brackets.lean ====
section
/-! Bracket counting in the source, one character at a time, and the `[` that is open at an index (44_loop.md R183). -/

namespace Sys2Proof.Machine

variable {src : List CodePoint} {i : Instr} {p q d : Nat}

/-! ### Counts and depths at the next index -/

theorem countBetween_self (src : List CodePoint) (i : Instr) (a : Nat) : countBetween src i a a = 0 := by
  rw [countBetween, List.drop_take_self, List.countP_nil]

theorem countBetween_succ (src : List CodePoint) (i : Instr) {a q : Nat} (h : a ≤ q) :
    countBetween src i a (q + 1) =
      countBetween src i a q + if (fetchAt src q).map ofCodePoint = some i then 1 else 0 := by
  rw [countBetween, List.take_add_one, fetchAt]
  rcases Nat.lt_or_ge q src.length with hq | hq
  · have hlen : a ≤ (src.take q).length := by rw [List.length_take]; omega
    rw [List.drop_append_of_le_length hlen, List.countP_append, List.getElem?_eq_getElem hq]
    simp [countBetween, List.countP_singleton]
  · simp [countBetween, List.getElem?_eq_none hq]

theorem countBetween_zero_mono (src : List CodePoint) (i : Instr) {m n : Nat} (h : m ≤ n) :
    countBetween src i 0 m ≤ countBetween src i 0 n :=
  (List.take_sublist_take_left h).countP_le

/-- Rising indices below `n` at each of which the symbol stands are no more than its count before `n`. -/
theorem length_le_countBetween (l : List Nat) {n : Nat} (hrise : l.Pairwise (· < ·)) (hlt : ∀ e ∈ l, e < n)
    (hsym : ∀ e ∈ l, (fetchAt src e).map ofCodePoint = some i) : l.length ≤ countBetween src i 0 n := by
  induction l using List.reverseRecOn generalizing n with
  | nil => exact Nat.zero_le _
  | append_singleton l t ih =>
    obtain ⟨hl, -, hbelow⟩ := List.pairwise_append.1 hrise
    have hrest : l.length ≤ countBetween src i 0 t :=
      ih hl (fun e he => hbelow e he t (List.mem_singleton_self t)) fun e he => hsym e (List.mem_append_left _ he)
    have hlast : countBetween src i 0 (t + 1) = countBetween src i 0 t + 1 := by
      rw [countBetween_succ src i (Nat.zero_le t), if_pos (hsym t (by simp))]
    have hmono : countBetween src i 0 (t + 1) ≤ countBetween src i 0 n := countBetween_zero_mono src i (hlt t (by simp))
    rw [List.length_append, List.length_singleton]
    omega

theorem bracketDepth_first (src : List CodePoint) (p : Nat) : bracketDepth src p (p + 1) = 1 := by
  simp [bracketDepth, countBetween_self]

theorem bracketDepth_succ_loopStart (h : p < q) (hq : (fetchAt src q).map ofCodePoint = some .loopStart) :
    bracketDepth src p (q + 1) = bracketDepth src p q + 1 := by
  simp only [bracketDepth, countBetween_succ src _ (a := p + 1) h, hq, Option.some.injEq, reduceCtorEq, if_true,
    if_false]
  omega

theorem bracketDepth_succ_loopEnd (h : p < q) (hq : (fetchAt src q).map ofCodePoint = some .loopEnd) :
    bracketDepth src p (q + 1) = bracketDepth src p q - 1 := by
  simp only [bracketDepth, countBetween_succ src _ (a := p + 1) h, hq, Option.some.injEq, reduceCtorEq, if_true,
    if_false]
  omega

theorem bracketDepth_succ_other (h : p < q) (hs : (fetchAt src q).map ofCodePoint ≠ some .loopStart)
    (he : (fetchAt src q).map ofCodePoint ≠ some .loopEnd) : bracketDepth src p (q + 1) = bracketDepth src p q := by
  simp only [bracketDepth, countBetween_succ src _ (a := p + 1) h, if_neg hs, if_neg he, Nat.add_zero]

/-! ### The bracket open at an index -/

/-- The `[` at index `p` is open at index `q`, with depth `d` reached there: its match does not stand before `q`. -/
structure OpenAt (src : List CodePoint) (p q d : Nat) : Prop where
  lt : p < q
  start : (fetchAt src p).map ofCodePoint = some .loopStart
  depth : bracketDepth src p q = d
  stays : ∀ r, p < r → r ≤ q → 1 ≤ bracketDepth src p r

/-- Textual matches are the `[` open with depth one and the `]` that it is open at. -/
theorem matchingBracket_iff_openAt :
    matchingBracket src p q ↔ OpenAt src p q 1 ∧ (fetchAt src q).map ofCodePoint = some .loopEnd :=
  ⟨fun ⟨hlt, hstart, hend, hdepth, hstays⟩ => ⟨⟨hlt, hstart, hdepth, hstays⟩, hend⟩,
    fun ⟨⟨hlt, hstart, hdepth, hstays⟩, hend⟩ => ⟨hlt, hstart, hend, hdepth, hstays⟩⟩

namespace OpenAt

theorem first (h : (fetchAt src p).map ofCodePoint = some .loopStart) : OpenAt src p (p + 1) 1 where
  lt := Nat.lt_succ_self p
  start := h
  depth := bracketDepth_first src p
  stays := by
    intro r hpr hrp
    obtain rfl : r = p + 1 := by omega
    exact (bracketDepth_first src p).ge

theorem depth_pos (h : OpenAt src p q d) : 1 ≤ d := by
  have hq := h.stays q h.lt (Nat.le_refl q)
  rw [h.depth] at hq
  exact_mod_cast hq

theorem unique {e : Nat} (h : OpenAt src p q d) (h' : OpenAt src p q e) : d = e := by
  exact_mod_cast h.depth.symm.trans h'.depth

/-- A bracket stays open past a character that leaves the depth at one at least. -/
theorem succ {e : Nat} (h : OpenAt src p q d) (hdepth : bracketDepth src p (q + 1) = e) (he : 1 ≤ e) :
    OpenAt src p (q + 1) e where
  lt := Nat.lt_succ_of_lt h.lt
  start := h.start
  depth := hdepth
  stays := by
    intro r hpr hrq
    obtain hle | rfl : r ≤ q ∨ r = q + 1 := by omega
    · exact h.stays r hpr hle
    · rw [hdepth]; exact_mod_cast he

theorem succ_loopStart (h : OpenAt src p q d) (hq : (fetchAt src q).map ofCodePoint = some .loopStart) :
    OpenAt src p (q + 1) (d + 1) :=
  h.succ (by rw [bracketDepth_succ_loopStart h.lt hq, h.depth]; rfl) (Nat.le_add_left 1 d)

theorem succ_loopEnd (h : OpenAt src p q (d + 1)) (hd : 1 ≤ d) (hq : (fetchAt src q).map ofCodePoint = some .loopEnd) :
    OpenAt src p (q + 1) d :=
  h.succ (by rw [bracketDepth_succ_loopEnd h.lt hq, h.depth]; push_cast; omega) hd

theorem succ_other (h : OpenAt src p q d) (hs : (fetchAt src q).map ofCodePoint ≠ some .loopStart)
    (he : (fetchAt src q).map ofCodePoint ≠ some .loopEnd) : OpenAt src p (q + 1) d :=
  h.succ ((bracketDepth_succ_other h.lt hs he).trans h.depth) h.depth_pos

end OpenAt

end Sys2Proof.Machine
end

