-- ==== Sys2Proof/Proofs/Skip.lean ====
section
/-! A `[` on a zero cell: the skip counts brackets as the textual match does, so it ends just after the match, or at the end
of the source where there is none (44_loop.md R182, R183, R185; 40_dispatch.md R113 to R115). -/

namespace Sys2Proof.Machine

variable {s t : State} {p d : Nat}

theorem steps_succ_of_next (k : Nat) (h : step s = .next t) : steps (k + 1) s = steps k t := by simp only [steps, h]

theorem steps_one_of_next (h : step s = .next t) : steps 1 s = .next t := steps_succ_of_next 0 h

theorem steps_one_of_fault {f : Fault} (h : step s = .fault f) : steps 1 s = .fault f := by simp only [steps, h]

theorem steps_add {j k : Nat} (h : steps k s = .next t) : steps (k + j) s = steps j t := by
  induction k generalizing s with
  | zero =>
    obtain rfl : s = t := Host.Outcome.next.inj h
    rw [Nat.zero_add]
  | succ k ih =>
    rw [Nat.succ_add]
    cases hstep : step s with
    | next u =>
      rw [steps_succ_of_next _ hstep] at h ⊢
      exact ih h
    | fault f => simp only [steps, hstep] at h; cases h
    | refused r => simp only [steps, hstep] at h; cases h

/-- A step runs the symbol that stands at `ip` in the source. -/
theorem step_of_fetchAt {i : Instr} (h : (fetchAt s.src s.ip).map ofCodePoint = some i) : step s = exec i s := by
  rw [step, (fetchAt_ip_eq_some_iff.1 h).1]

/-- Reading on in a skip, from index `s.ip`, at which the depth is `d`. -/
def State.skipTo (s : State) (q d : Nat) : State := { s with ms := .skipping d, ip := q }

theorem State.skipTo_self (h : s.ms = .skipping d) : s.skipTo s.ip d = s := by rw [State.skipTo, ← h]

/-- One step of a skip that does not meet the match: the depth counted by the machine is the textual depth. -/
theorem step_skipping (hms : s.ms = .skipping d) (hopen : OpenAt s.src p s.ip d) (hip : s.ip < s.src.length)
    (hno : ¬ matchingBracket s.src p s.ip) :
    ∃ e, step s = .next (s.skipTo (s.ip + 1) e) ∧ OpenAt s.src p (s.ip + 1) e := by
  obtain ⟨i, hi⟩ : ∃ i, (fetchAt s.src s.ip).map ofCodePoint = some i :=
    ⟨_, by rw [fetchAt, List.getElem?_eq_getElem hip]; rfl⟩
  rw [step_of_fetchAt hi]
  by_cases hstart : i = .loopStart
  · subst hstart
    exact ⟨d + 1, exec_of_engineStep_succeed (engineStep_loopStart_skipping hms), hopen.succ_loopStart hi⟩
  by_cases hend : i = .loopEnd
  · subst hend
    obtain ⟨e, rfl⟩ := Nat.exists_eq_add_of_le' hopen.depth_pos
    have hdeep : 1 ≤ e := by
      rw [Nat.one_le_iff_ne_zero]
      rintro rfl
      exact hno (matchingBracket_iff_openAt.2 ⟨hopen, hi⟩)
    have hcount : engineStep .loopEnd s = succeed (s.setMs (.skipping e)).advance :=
      (engineStep_loopEnd_skipping hms).trans (countLoopEnd_of_two_le s (Nat.succ_le_succ hdeep))
    exact ⟨e, exec_of_engineStep_succeed hcount, hopen.succ_loopEnd hdeep hi⟩
  · have hpass := engineStep_passedOver i hms hstart hend (fetchAt_ip_eq_some_iff.1 hi).2
    have hstate : s.advance = s.skipTo (s.ip + 1) d := by rw [State.skipTo, ← hms]; rfl
    refine ⟨d, hstate ▸ exec_of_engineStep_succeed hpass, hopen.succ_other ?_ ?_⟩
    · rw [hi]; exact fun he => hstart (Option.some.inj he)
    · rw [hi]; exact fun he => hend (Option.some.inj he)

/-- Any number of steps of a skip that has not met the match. -/
theorem steps_skipping (k : Nat) (hms : s.ms = .skipping d) (hopen : OpenAt s.src p s.ip d)
    (hlen : s.ip + k ≤ s.src.length) (hno : ∀ r, r < s.ip + k → ¬ matchingBracket s.src p r) :
    ∃ e, steps k s = .next (s.skipTo (s.ip + k) e) ∧ OpenAt s.src p (s.ip + k) e := by
  induction k with
  | zero => exact ⟨d, congrArg _ (State.skipTo_self hms).symm, hopen⟩
  | succ k ih =>
    obtain ⟨e, hsteps, hopen'⟩ := ih (by omega) fun r hr => hno r (by omega)
    obtain ⟨e', hstep, hopen''⟩ := step_skipping (s := s.skipTo (s.ip + k) e) rfl hopen' (by exact hlen)
      (hno (s.ip + k) (by omega))
    exact ⟨e', (steps_add hsteps).trans (steps_one_of_next hstep), hopen''⟩

theorem step_loopStart_of_zero (hms : s.ms = .running) (hcell : memRead s s.cellAddress = .ok 0#8)
    (hsym : (fetchAt s.src s.ip).map ofCodePoint = some .loopStart) : step s = .next (s.skipTo (s.ip + 1) 1) :=
  (step_of_fetchAt hsym).trans (exec_of_engineStep_succeed (engineStep_loopStart_running hms hcell))

/-- From a `[` on a zero cell, through every index up to `q` that the bracket's match does not stand before. -/
theorem steps_from_loopStart {q : Nat} (hms : s.ms = .running) (hcell : memRead s s.cellAddress = .ok 0#8)
    (hsym : (fetchAt s.src s.ip).map ofCodePoint = some .loopStart) (hq : s.ip < q) (hlen : q ≤ s.src.length)
    (hno : ∀ r, r < q → ¬ matchingBracket s.src s.ip r) :
    ∃ d, steps (q - s.ip) s = .next (s.skipTo q d) ∧ OpenAt s.src s.ip q d := by
  obtain ⟨k, rfl⟩ := Nat.exists_eq_add_of_le (Nat.succ_le_of_lt hq)
  obtain ⟨d, hsteps, hopen⟩ := steps_skipping (s := s.skipTo (s.ip + 1) 1) k rfl (OpenAt.first hsym) hlen hno
  have hcount : s.ip.succ + k - s.ip = 1 + k := by omega
  have hfirst := steps_one_of_next (step_loopStart_of_zero hms hcell hsym)
  exact ⟨d, hcount ▸ (steps_add hfirst).trans hsteps, hopen⟩

/-- A match brings the depth to zero just after it, so a bracket has none before another. -/
theorem not_matchingBracket_of_lt {src : List CodePoint} {q r : Nat} (hq : matchingBracket src p q) (hr : r < q) :
    ¬ matchingBracket src p r := fun hmatch => by
  obtain ⟨hopen, hend⟩ := matchingBracket_iff_openAt.1 hmatch
  have hzero := bracketDepth_succ_loopEnd hopen.lt hend
  have hpos := (matchingBracket_iff_openAt.1 hq).1.stays (r + 1) (Nat.lt_succ_of_lt hopen.lt) hr
  have hone := hopen.depth
  omega

theorem lt_length_of_fetchAt {src : List CodePoint} {q : Nat} {i : Instr} (h : (fetchAt src q).map ofCodePoint = some i) :
    q < src.length := by
  obtain ⟨c, hc, -⟩ := Option.map_eq_some_iff.1 h
  exact (List.getElem?_eq_some_iff.1 hc).1

/-- Settles O52: the skip reaches the match with depth one, and the `]` there ends it. -/
theorem skippingStopsAfterTheTextualMatch : Obligations.SkippingStopsAfterTheTextualMatch := by
  unfold Obligations.SkippingStopsAfterTheTextualMatch
  intro s q hms hcell hmatch
  obtain ⟨hone, hend⟩ := matchingBracket_iff_openAt.1 hmatch
  obtain ⟨d, hsteps, hopen⟩ := steps_from_loopStart hms hcell hone.start hone.lt (lt_length_of_fetchAt hend).le
    fun r hr => not_matchingBracket_of_lt hmatch hr
  obtain rfl : d = 1 := hopen.unique hone
  have hlast : step (s.skipTo q 1) = .next ((s.skipTo q 1).setMs .running).advance :=
    (step_of_fetchAt hend).trans
      (exec_of_engineStep_succeed ((engineStep_loopEnd_skipping rfl).trans (countLoopEnd_one _)))
  have hstate : ((s.skipTo q 1).setMs .running).advance = { s with ip := q + 1 } := by rw [← hms]; rfl
  rw [steps_add hsteps, steps_one_of_next hlast, hstate]

/-- Settles O53: without a match the skip reaches the end of the source, where EOF faults with the depth. -/
theorem unmatchedSkippedLoopFaultsAtTheEnd : Obligations.UnmatchedSkippedLoopFaultsAtTheEnd := by
  unfold Obligations.UnmatchedSkippedLoopFaultsAtTheEnd
  intro s hms hcell hsym hno
  obtain ⟨d, hsteps, hopen⟩ := steps_from_loopStart hms hcell hsym (lt_length_of_fetchAt hsym) (Nat.le_refl _)
    fun r _ => hno r
  have heof : decode (s.skipTo s.src.length d).fetchWord = .eof := (decode_fetchWord_eq_eof_iff _).2 (Nat.le_refl _)
  have hfault : step (s.skipTo s.src.length d) = .fault (.mismatchedBrackets s.src.length d) := by
    rw [step, heof]
    exact exec_of_engineStep_raise (engineStep_eof_skipping rfl)
  rw [steps_add hsteps, steps_one_of_fault hfault, hopen.depth, Int.toNat_natCast]

end Sys2Proof.Machine
end

