-- ==== Sys2Proof/Proofs/RunInvariant.lean ====
section
/-! What holds of the machine in every run of a source: `ip` stays within it, and the stack is the nest of the brackets that
are open at `ip` (40_dispatch.md R126; 44_loop.md R184). -/

namespace Sys2Proof.Machine

variable {s : State} {i : Instr} {o : StepOut} {src : List CodePoint} {answers : List (Option Byte)} {cap : Nat}
  {lrs : List Nat} {ip d : Nat}

/-- How many brackets a machine state counts: the skip depth, and none outside a skip. -/
def MState.depth : MState → Nat
  | .running => 0
  | .skipping d => d
  | .halted => 0

/-- The stack as the source tells it, at index `ip` with `d` more brackets counted by a skip: each entry is a `[` that is open
at the next entry, at depth one, and the last is open at `ip`. -/
structure LoopsOpen (src : List CodePoint) (lrs : List Nat) (ip d : Nat) : Prop where
  starts : ∀ e ∈ lrs, (fetchAt src e).map ofCodePoint = some .loopStart
  nested : lrs.IsChain fun a b => OpenAt src a b 1
  top : ∀ p, lrs.getLast? = some p → OpenAt src p ip (d + 1)
  depthLe : d ≤ countBetween src .loopStart 0 ip

namespace LoopsOpen

theorem start (src : List CodePoint) : LoopsOpen src [] 0 0 where
  starts := by simp
  nested := .nil
  top := by simp
  depthLe := Nat.zero_le _

/-- A `[` counted. -/
theorem succ_loopStart (h : LoopsOpen src lrs ip d) (hip : (fetchAt src ip).map ofCodePoint = some .loopStart) :
    LoopsOpen src lrs (ip + 1) (d + 1) :=
  { h with
    top := fun p hp => (h.top p hp).succ_loopStart hip
    depthLe := by
      rw [countBetween_succ src _ (Nat.zero_le ip), if_pos hip]
      exact Nat.succ_le_succ h.depthLe }

/-- A `]` counted. -/
theorem succ_loopEnd (h : LoopsOpen src lrs ip (d + 1)) (hip : (fetchAt src ip).map ofCodePoint = some .loopEnd) :
    LoopsOpen src lrs (ip + 1) d :=
  { h with
    top := fun p hp => (h.top p hp).succ_loopEnd (Nat.le_add_left 1 d) hip
    depthLe := (Nat.le_succ d).trans (h.depthLe.trans (countBetween_zero_mono src _ (Nat.le_succ ip))) }

/-- A character that is no bracket. -/
theorem succ_other (h : LoopsOpen src lrs ip d) (hip : (fetchAt src ip).map ofCodePoint = some i) (hs : i ≠ .loopStart)
    (he : i ≠ .loopEnd) : LoopsOpen src lrs (ip + 1) d :=
  { h with
    top := fun p hp => (h.top p hp).succ_other (fun hc => hs (Option.some.inj (hip.symm.trans hc)))
      fun hc => he (Option.some.inj (hip.symm.trans hc))
    depthLe := h.depthLe.trans (countBetween_zero_mono src _ (Nat.le_succ ip)) }

/-- A `[` entered: it is the innermost bracket open at the next index. -/
theorem push (h : LoopsOpen src lrs ip 0) (hip : (fetchAt src ip).map ofCodePoint = some .loopStart) :
    LoopsOpen src (lrs ++ [ip]) (ip + 1) 0 where
  starts := by
    intro e he
    obtain hold | hnew := List.mem_append.1 he
    · exact h.starts e hold
    · rwa [List.mem_singleton.1 hnew]
  nested := by
    refine List.isChain_append.2 ⟨h.nested, .singleton ip, fun p hp q hq => ?_⟩
    obtain rfl : ip = q := by simpa using hq
    exact h.top p hp
  top := by
    intro p hp
    obtain rfl : ip = p := by simpa using hp
    exact OpenAt.first hip
  depthLe := Nat.zero_le _

/-- A `]` that jumps back to the innermost bracket leaves the brackets around that one open there. -/
theorem pop {p : Nat} (h : LoopsOpen src (lrs ++ [p]) ip d) : LoopsOpen src lrs p 0 := by
  obtain ⟨hnested, -, hlink⟩ := List.isChain_append.1 h.nested
  exact
    { starts := fun e he => h.starts e (List.mem_append_left _ he)
      nested := hnested
      top := fun q hq => hlink q hq p rfl
      depthLe := Nat.zero_le _ }

end LoopsOpen

/-- What holds of the machine in a run with the parameters given. -/
structure State.InRun (cap : Nat) (src : List CodePoint) (answers : List (Option Byte)) (s : State) : Prop where
  inv : s.Inv
  params : (State.fresh cap src answers).sameParams s
  ipLe : s.ip ≤ src.length
  loops : LoopsOpen src s.lrs s.ip s.ms.depth

theorem State.fresh_inRun (src : List CodePoint) (answers : List (Option Byte)) (h : 1 ≤ cap) :
    (State.fresh cap src answers).InRun cap src answers where
  inv := State.fresh_inv src answers h
  params := State.sameParams_refl _
  ipLe := Nat.zero_le _
  loops := LoopsOpen.start src

namespace State.InRun

theorem cap_eq (h : s.InRun cap src answers) : s.cap = cap := h.params.1

theorem src_eq (h : s.InRun cap src answers) : s.src = src := h.params.2.1

theorem answers_eq (h : s.InRun cap src answers) : s.answers = answers := h.params.2.2

theorem decode_eq_eof_iff (h : s.InRun cap src answers) : decode s.fetchWord = .eof ↔ s.ip = src.length := by
  rw [decode_fetchWord_eq_eof_iff, h.src_eq]
  exact h.ipLe.ge_iff_eq

theorem fetchAt_ip (h : s.InRun cap src answers) (hi : decode s.fetchWord = i) (hne : i ≠ .eof) :
    (fetchAt src s.ip).map ofCodePoint = some i :=
  h.src_eq ▸ fetchAt_ip_eq_some_iff.2 ⟨hi, hne⟩

end State.InRun

/-- `ip` never passes EOF: a step of EOF leaves it, and every other moves it one on, or keeps it, or takes it back. -/
theorem StepCase.ip_le (hc : StepCase s i o) (hinv : s.Inv) :
    o.state.ip ≤ s.ip ∨ (i ≠ .eof ∧ o.state.ip = s.ip + 1) := by
  cases hc with
  | loopEnd _ _ _ hl => exact .inl (hinv.top_lt_ip hl).le
  | passedOver _ _ _ _ _ hne => exact .inr ⟨hne, rfl⟩
  | halted | skipEof | halt | moveRightFault | moveLeftFault | tapeFault | incrementFault | decrementFault | printFault
  | readTapeFault | readFault | loopEndFault => exact .inl (Nat.le_refl _)
  | skipLoopEnd | skipLoopStart | comment | moveRight | moveLeft | increment | decrement | print | read | loopEnter
  | loopSkip => exact .inr ⟨nofun, rfl⟩

/-- A step of the symbol at `ip` keeps the stack the nest of the open brackets: it counts, pushes or pops a bracket just as
the source has one there. -/
theorem StepCase.loopsOpen (hc : StepCase s i o) (hinv : s.Inv) (h : LoopsOpen src s.lrs s.ip s.ms.depth)
    (hsym : i ≠ .eof → (fetchAt src s.ip).map ofCodePoint = some i) :
    LoopsOpen src o.state.lrs o.state.ip o.state.ms.depth := by
  cases hc with
  | skipLoopEnd d hms =>
    obtain ⟨e, rfl⟩ := Nat.exists_eq_add_of_le' (hinv.depthPos d hms)
    rw [hms] at h
    have hdepth : (if e + 1 - 1 = 0 then MState.running else .skipping (e + 1 - 1)).depth = e := by
      split <;> simp_all [MState.depth]
    exact hdepth.symm ▸ h.succ_loopEnd (hsym nofun)
  | skipLoopStart d hms =>
    rw [hms] at h
    exact h.succ_loopStart (hsym nofun)
  | loopEnter hms =>
    rw [hms] at h
    exact (congrArg MState.depth hms).symm ▸ h.push (hsym nofun)
  | loopSkip hms =>
    rw [hms] at h
    exact h.succ_loopStart (hsym nofun)
  | loopEnd rest p hms hl =>
    rw [hl] at h
    exact (congrArg MState.depth hms).symm ▸ h.pop
  | halt hms =>
    rw [hms] at h
    exact h
  | passedOver _ _ _ hs he hne => exact h.succ_other (hsym hne) hs he
  | comment | moveRight | moveLeft | increment | decrement | print | read =>
    exact h.succ_other (hsym nofun) nofun nofun
  | halted | skipEof | moveRightFault | moveLeftFault | tapeFault | incrementFault | decrementFault | printFault
  | readTapeFault | readFault | loopEndFault => exact h

/-- Every step of the symbol at `ip`, faulting or not, keeps what holds in a run. -/
theorem State.InRun.step (h : s.InRun cap src answers) :
    (engineStep (decode s.fetchWord) s).state.InRun cap src answers where
  inv := engineStep_inv _ h.inv
  params := by
    obtain ⟨hcap, hsrc, hanswers⟩ := engineStep_sameParams (decode s.fetchWord) s
    exact ⟨hcap.trans h.cap_eq, hsrc.trans h.src_eq, hanswers.trans h.answers_eq⟩
  ipLe := by
    obtain hle | ⟨hne, hsucc⟩ := (engineStep_case (decode s.fetchWord) s).ip_le h.inv
    · exact hle.trans h.ipLe
    · rw [hsucc]
      exact Nat.lt_of_le_of_ne h.ipLe (mt h.decode_eq_eof_iff.2 hne)
  loops := (engineStep_case _ s).loopsOpen h.inv h.loops (h.fetchAt_ip rfl)

/-- What holds of a run: of its machine, that a run that goes on is not halted, and that a fault is the last step's. -/
structure Run.Sound (cap : Nat) (src : List CodePoint) (answers : List (Option Byte)) (r : Run) : Prop where
  state : r.state.InRun cap src answers
  going : r.outcome = none → r.state.ms ≠ .halted
  faulted : ∀ f, r.outcome = some (.faulted f) → ∃ s : State, s.InRun cap src answers ∧ s.ms ≠ .halted ∧
    (engineStep (decode s.fetchWord) s).result = .fault f ∧ r.state = (engineStep (decode s.fetchWord) s).state

theorem Run.Sound.cycle {r : Run} (ho : r.outcome = none) (h : r.Sound cap src answers) : r.cycle.Sound cap src answers := by
  rw [Run.cycle_of_going ho]
  exact
    { state := h.state.step
      going := fun hnone => (outcomeAfter_eq_none_iff.1 hnone).2
      faulted := fun f hf => ⟨r.state, h.state, h.going ho, outcomeAfter_eq_faulted_iff.1 hf, rfl⟩ }

theorem Run.sound_cycles (src : List CodePoint) (answers : List (Option Byte)) (n : Nat) (h : 1 ≤ cap) :
    ((Run.start cap src answers).cycles n).Sound cap src answers :=
  Run.cycles_induction (Run.Sound cap src answers) (fun _ ho hr => hr.cycle ho) n _
    { state := State.fresh_inRun src answers h
      going := fun _ => nofun
      faulted := nofun }

end Sys2Proof.Machine
end

