-- ==== Sys2Proof/Proofs/Run.lean ====
section
/-! The driver's cycle, and what every run keeps and ends with (40_dispatch.md R124 to R127; 44_loop.md R184). -/

namespace Sys2Proof.Machine

variable {s t : State} {i : Instr} {o : StepOut} {r : Run}

/-! ### The cycle -/

theorem Run.cycles_of_stopped {x : RunOutcome} (h : r.outcome = some x) (n : Nat) : r.cycles n = r := by
  induction n with
  | zero => rfl
  | succ n ih => rw [Run.cycles, Run.cycle_of_stopped h, ih]

theorem outcomeAfter_of_ok (h : o.result = .ok) :
    outcomeAfter o = if o.state.ms = .halted then some .succeeded else none := by
  split
  · next hms => exact outcomeAfter_eq_succeeded_iff.2 ⟨h, hms⟩
  · next hms => exact outcomeAfter_eq_none_iff.2 ⟨h, hms⟩

theorem step_eq_outcomeOf (s : State) : step s = outcomeOf (engineStep (decode s.fetchWord) s) := exec_eq_outcomeOf _ s

/-- Settles O46: the cycle feeds the engine the same symbol as `step`, and the stop test reads the result and `ms`. -/
theorem cycleIsAStepAndTheStopTest : Obligations.CycleIsAStepAndTheStopTest := by
  unfold Obligations.CycleIsAStepAndTheStopTest
  intro r
  refine ⟨fun x n hx => Run.cycles_of_stopped hx n, fun t ho hstep => ?_, fun f ho hstep => ?_⟩
  · rw [step_eq_outcomeOf, outcomeOf_eq_next_iff] at hstep
    obtain ⟨hok, rfl⟩ := hstep
    rw [Run.cycle_of_going ho]
    exact ⟨rfl, outcomeAfter_of_ok hok⟩
  · rw [step_eq_outcomeOf, outcomeOf_eq_fault_iff] at hstep
    rw [Run.cycle_of_going ho]
    exact ⟨outcomeAfter_eq_faulted_iff.2 hstep, sameEngine_of_fault hstep⟩

/-- A step ends well in Halted exactly where it is EOF's in Running. -/
theorem StepCase.halts_iff (hc : StepCase s i o) :
    o.result = .ok ∧ o.state.ms = .halted ↔ s.ms = .running ∧ i = .eof := by
  cases hc with
  | halt h => simp [h]
  | skipLoopEnd d h =>
    have hne : (if d - 1 = 0 then MState.running else .skipping (d - 1)) ≠ .halted := by split <;> nofun
    simp [h, hne]
  | halted _ h | skipLoopStart _ h | skipEof _ h | passedOver _ _ h | comment _ h | moveRight h | moveLeft h | increment h
  | decrement h | print h | read _ h | loopEnter h | loopSkip h | loopEnd _ _ h => simp [h]
  | moveRightFault | moveLeftFault | incrementFault | decrementFault | printFault | readTapeFault | readFault
  | loopEndFault => simp
  | tapeFault _ _ _ hi => exact iff_of_false nofun (by rintro ⟨-, rfl⟩; simp at hi)

/-- Settles O47: a run succeeds where its step ends in Halted without a fault, which is EOF's step in Running. -/
theorem runSucceedsExactlyByEofInRunning : Obligations.RunSucceedsExactlyByEofInRunning := by
  unfold Obligations.RunSucceedsExactlyByEofInRunning
  intro r ho
  rw [Run.cycle_of_going ho, outcomeAfter_eq_succeeded_iff, (engineStep_case _ _).halts_iff, decode_fetchWord_eq_eof_iff]

/-! ### What every run keeps -/

/-- Settles O48: `ip` moves on only past a character of the source. -/
theorem runKeepsIpWithinTheSource : Obligations.RunKeepsIpWithinTheSource := by
  unfold Obligations.RunKeepsIpWithinTheSource
  intro cap src answers n hcap
  have hrun := (Run.sound_cycles src answers n hcap).state
  exact ⟨hrun.ipLe, hrun.decode_eq_eof_iff⟩

/-- Settles O50: the stack is a rising list of `[` positions below `ip`, and a skip counts no `[` but the source's. -/
theorem runStackHoldsLoopStartPositions : Obligations.RunStackHoldsLoopStartPositions := by
  unfold Obligations.RunStackHoldsLoopStartPositions
  intro cap src answers n hcap
  have hrun := (Run.sound_cycles src answers n hcap).state
  refine ⟨hrun.loops.starts, ?_, fun d hd => ?_⟩
  · exact length_le_countBetween _ hrun.inv.lrsRising hrun.inv.lrsBelowIp hrun.loops.starts
  · have hdepth := hrun.loops.depthLe
    rw [hd] at hdepth
    exact hdepth.trans (countBetween_zero_mono src _ hrun.ipLe)

/-- Settles O51: the top of the stack is open at `ip` with depth one, so the `]` there is its textual match. -/
theorem loopEndJumpsToItsTextualMatch : Obligations.LoopEndJumpsToItsTextualMatch := by
  unfold Obligations.LoopEndJumpsToItsTextualMatch
  intro cap src answers n p hcap r _ hms hsym htop
  have hrun : r.state.InRun cap src answers := (Run.sound_cycles src answers n hcap).state
  have hopen := hrun.loops.top p htop
  rw [hms] at hopen
  refine ⟨matchingBracket_iff_openAt.2 ⟨hopen, hsym⟩, ?_⟩
  have hlrs : r.state.lrs = r.state.lrs.dropLast ++ [p] := (List.dropLast_append_getLast? p htop).symm
  have hstep : step r.state = exec .loopEnd r.state := step_of_fetchAt (by rw [hrun.src_eq]; exact hsym)
  exact hstep.trans (exec_of_engineStep_succeed (engineStep_loopEnd_of_lrs_eq_append hms hlrs))

/-! ### What a run's fault tells -/

/-- Settles O49: the fault is the last step's, so it is a line of the fault table for the state before that step, and the
state after it is that state, but for the answer that a Read has consumed. -/
theorem runFaultsCarryTheStatedPayloads : Obligations.RunFaultsCarryTheStatedPayloads := by
  unfold Obligations.RunFaultsCarryTheStatedPayloads
  intro cap src answers n f hcap r hf
  have hrun : r.Sound cap src answers := Run.sound_cycles src answers n hcap
  obtain ⟨s, hs, hgoing, hfault, hstate⟩ := hrun.faulted f hf
  have heng : s.sameEngine r.state := hstate ▸ sameEngine_of_fault hfault
  have hread : ∀ a, memRead r.state a = memRead s a :=
    heng.memRead_eq (hrun.state.cap_eq.trans hs.cap_eq.symm)
  have htable := (faultsAreExactlyTheTable _ s f hs.inv).1 hfault
  obtain ⟨hhalted, -⟩ | ⟨d, hms, heof, rfl⟩ | ⟨hms, ⟨-, hdp, rfl⟩ | ⟨-, hdp, rfl⟩ | ⟨-, hcell, rfl⟩ | ⟨-, hcell, rfl⟩ |
    ⟨hi, hans, rfl⟩ | ⟨-, hlrs, rfl⟩ | ⟨-, b, hcell, hb, rfl⟩⟩ := htable
  · exact absurd hhalted hgoing
  · exact ⟨hs.decode_eq_eof_iff.1 heof, hs.inv.depthPos d hms, heng.ms_eq.trans hms⟩
  · exact ⟨(heng.dp_eq.trans hdp).symm, .inr (by rw [hs.cap_eq])⟩
  · exact ⟨(heng.dp_eq.trans hdp).symm, .inl rfl⟩
  · exact ⟨heng.dp_eq.symm, (hread _).trans hcell⟩
  · exact ⟨heng.dp_eq.symm, (hread _).trans hcell⟩
  · refine ⟨s.inputPos, ?_, hs.answers_eq ▸ hans⟩
    obtain ⟨-, ⟨-, -, hconsumed⟩ | ⟨hno, -⟩⟩ := (engineStep_case _ s).state_of_fault hfault
    · rw [hstate, hconsumed, State.consumeAnswer_inputPos]
    · exact absurd ⟨hi, hms⟩ hno
  · exact heng.lrs_eq.trans hlrs
  · exact ⟨hb, by rw [hread, heng.dp_eq, hcell]⟩

end Sys2Proof.Machine
end

