-- ==== Sys2Proof/Proofs/Collaborators.lean ====
section
/-! The reference collaborators keep the contracts that the engine relies on (43_io.md R162, R164, R166). -/

namespace Sys2Proof.Machine

variable {c : CodePoint} {rest : List CodePoint} {b : Byte}

theorem lineAnswer_of_le (rest : List CodePoint) (h : c.toNat ≤ 0x7F) : lineAnswer (c :: rest) = some (c.setWidth 8) :=
  if_pos h

theorem lineAnswer_of_gt (rest : List CodePoint) (h : 0x7F < c.toNat) : lineAnswer (c :: rest) = none :=
  if_neg (Nat.not_le.2 h)

theorem toNat_setWidth_of_le (h : c.toNat ≤ 0x7F) : (c.setWidth 8).toNat = c.toNat := by
  rw [BitVec.toNat_setWidth]
  omega

theorem toNat_le_of_lineAnswer {text : List CodePoint} (h : lineAnswer text = some b) : b.toNat ≤ 0x7F := by
  cases text with
  | nil => cases h
  | cons c rest =>
    rcases Nat.lt_or_ge 0x7F c.toNat with hc | hc
    · rw [lineAnswer_of_gt rest hc] at h
      cases h
    · rw [lineAnswer_of_le rest hc] at h
      obtain rfl := Option.some.inj h
      exact (toNat_setWidth_of_le hc).trans_le hc

theorem referenceAnswers_inContract (lines : List (List CodePoint)) : inputInContract (referenceAnswers lines) := by
  intro b hb
  obtain ⟨text, -, htext⟩ := List.mem_map.1 hb
  exact toNat_le_of_lineAnswer htext

theorem printChar_of_le (log : List Byte) (h : b.toNat ≤ 0x7F) : printChar b log = some (log ++ [b], [b.setWidth 21]) :=
  if_pos ((printable_eq_true_iff b).2 h)

theorem toNat_setWidth_codePoint (b : Byte) : (b.setWidth 21).toNat = b.toNat := by
  rw [BitVec.toNat_setWidth]
  omega

/-- Settles O55: an answer is a first character of at most 0x7F, and a byte that Print hands over is of at most 0x7F too. -/
theorem referenceCollaboratorsMeetTheirContracts : Obligations.ReferenceCollaboratorsMeetTheirContracts := by
  unfold Obligations.ReferenceCollaboratorsMeetTheirContracts
  refine ⟨fun c rest => ⟨fun h => ⟨_, lineAnswer_of_le rest h, toNat_setWidth_of_le h⟩, lineAnswer_of_gt rest⟩, rfl,
    referenceAnswers_inContract, fun s b hbyte => ⟨b.setWidth 21, toNat_setWidth_codePoint b, ?_⟩⟩
  obtain ⟨-, hprinted, hlog, -⟩ := collaboratorsAreCalledOnlyByReadAndPrint .print s
  obtain ⟨-, -, -, hb⟩ := (hprinted b).1 hbyte
  rw [printChar_of_le _ hb, hlog, hbyte]
  rfl

end Sys2Proof.Machine
end

