-- ==== Sys2Proof/Proofs/Codes.lean ====
section
/-! The numbers of a binary dump tell things apart (30_encoding.md R93; 10_state.md R30; 60_exceptions.md R208). -/

namespace Sys2Proof.Machine

variable {i j : Instr} {m n : MState} {f g : Fault}

/-- The symbol of each tag, Other's with a character of no meaning. -/
def symbolOfTag (tag : BitVec 4) : Instr :=
  ([.moveRight, .moveLeft, .increment, .decrement, .print, .read, .loopStart, .loopEnd, .eof] : List Instr).getD tag.toNat
    (.other 0)

/-- A tag gives its symbol back, but for the character of Other. -/
theorem eq_symbolOfTag_or_other (i : Instr) :
    (i = symbolOfTag (symbolTag i) ∧ symbolTag i ≠ 9) ∨ (∃ c, i = .other c) ∧ symbolTag i = 9 := by
  cases i with
  | other c => exact .inr ⟨⟨c, rfl⟩, rfl⟩
  | moveRight | moveLeft | increment | decrement | print | read | loopStart | loopEnd | eof =>
    exact .inl ⟨rfl, by decide⟩

theorem eq_or_other_of_symbolTag_eq (h : symbolTag i = symbolTag j) : i = j ∨ ∃ c d, i = .other c ∧ j = .other d := by
  obtain ⟨hi, hi9⟩ | ⟨⟨c, hi⟩, hi9⟩ := eq_symbolOfTag_or_other i <;>
    obtain ⟨hj, hj9⟩ | ⟨⟨d, hj⟩, hj9⟩ := eq_symbolOfTag_or_other j
  · exact .inl (by rw [hi, h, ← hj])
  · exact absurd (h.trans hj9) hi9
  · exact absurd (h.symm.trans hi9) hj9
  · exact .inr ⟨c, d, hi, hj⟩

theorem symbolTag_le (i : Instr) : (symbolTag i).toNat ≤ 9 := by cases i <;> simp [symbolTag]

/-- The machine state of a code. -/
def mstateOfCode : BitVec 2 × Option Nat → MState
  | (_, some d) => .skipping d
  | (tag, none) => if tag = 0 then .running else .halted

theorem mstateOfCode_machineStateCode (m : MState) : mstateOfCode (machineStateCode m) = m := by cases m <;> rfl

theorem machineStateCode_injective (h : machineStateCode m = machineStateCode n) : m = n := by
  rw [← mstateOfCode_machineStateCode m, h, mstateOfCode_machineStateCode]

theorem machineStateCode_tag_le (m : MState) : (machineStateCode m).1.toNat ≤ 2 := by cases m <;> simp [machineStateCode]

theorem faultCode_le (f : Fault) : faultCode f ≤ 6 := by cases f <;> simp [faultCode]

/-- A fault of each number, with a payload of no meaning. -/
def faultOfCode : Nat → Fault
  | 0 => .ptrOutOfBounds 0
  | 1 => .valOutOfBounds 0 .plusOne
  | 2 => .invalidChar
  | 3 => .stackUnderflow
  | 4 => .haltedMachine
  | 5 => .mismatchedBrackets 0 0
  | _ => .unprintableByte 0

theorem sameKind_faultOfCode (f : Fault) : f.SameKind (faultOfCode (faultCode f)) := by cases f <;> constructor

theorem Fault.SameKind.symm (h : f.SameKind g) : g.SameKind f := by cases h <;> constructor

theorem Fault.SameKind.trans {e : Fault} (h : e.SameKind f) (h' : f.SameKind g) : e.SameKind g := by
  cases h <;> cases h' <;> constructor

/-- The seven kinds have seven numbers, whatever a fault carries. -/
theorem faultCode_eq_iff : faultCode f = faultCode g ↔ f.SameKind g := by
  constructor
  · intro h
    exact (sameKind_faultOfCode f).trans (h ▸ (sameKind_faultOfCode g).symm)
  · intro h
    cases h <;> rfl

/-- Settles O56: the numbers are the spec's by evaluation, symbols and machine states are had back from them, and faults of
one number are of one kind. -/
theorem binaryCodesTellThingsApart : Obligations.BinaryCodesTellThingsApart := by
  unfold Obligations.BinaryCodesTellThingsApart
  refine ⟨?_, ?_, ?_, fun _ _ => eq_or_other_of_symbolTag_eq, symbolTag_le, fun _ _ => machineStateCode_injective,
    machineStateCode_tag_le, faultCode_le, fun _ _ => faultCode_eq_iff, fun _ => ⟨by simp [resultCode], rfl⟩⟩
  · exact ⟨rfl, rfl, rfl, rfl, rfl, rfl, rfl, rfl, rfl, fun _ => rfl⟩
  · exact ⟨rfl, fun _ => rfl, rfl⟩
  · exact ⟨fun _ => rfl, fun _ _ => rfl, rfl, rfl, rfl, fun _ _ => rfl, fun _ => rfl⟩

end Sys2Proof.Machine
end
